-- ==== Sys2Proof/Word.lean ====
section
/-! DEFINITION. The words of the SimplexNoise CORE datapath: widths only, no arithmetic. -/

namespace Sys2Proof

/-- A 32-bit unsigned word (R8): seeds, octave counts, the PRNG's state and output, command words. -/
abbrev U32 := BitVec 32

/-- An IEEE 754 binary64 pattern: sign in bit 63, exponent in bits 62:52, fraction in bits 51:0 (R14). -/
abbrev F64 := BitVec 64

/-- The 64-bit data of the register port (R71). -/
abbrev Data := BitVec 64

/-- A transaction written as one word, `{we, idx[4:0], d[63:0]}` (R100). -/
abbrev XactWord := BitVec 70

/-- A command word, the low 32 bits of the data of a write to CMD (R102). -/
abbrev CmdWord := BitVec 32

end Sys2Proof
end

