-- ==== Sys2Proof/Config.lean ====
section
/-! DEFINITION. What an implementation of SNC fixes (R7). The latencies of R7 are left out with time (R245). -/

namespace Sys2Proof.Config

/-- The two values of the parameter `RESET_TABLE` (R53, 93_implementation_defined.md U1). -/
inductive ResetTable where
  /-- the tables as SEED with seed 0 builds them -/
  | zeroSeeded
  /-- `PERM[n] = n mod 256` -/
  | identity
deriving DecidableEq, Repr

/-- `RESET_TABLE`: the value the spec takes (R7, D11). DESIGN CHOICE of the spec, entry 4: unsafe for a part built
with `identity`. -/
def resetTable : ResetTable := .zeroSeeded

/-- `PERM_N`: length of the base permutation (R7). -/
def permN : Nat := 256

/-- `TBL_N`: number of entries of each table (R7). -/
def tblN : Nat := 512

/-- How many iterations the shuffle makes: `SHUFFLE_LAST` is 254, so 255 (R7, R138, R143). -/
def shuffleSteps : Nat := 255

end Sys2Proof.Config
end

