-- ==== Sys2Proof/Machine/Float64.lean ====
section
/-! DEFINITION. IEEE 754 binary64 arithmetic (R14 to R22), by exact integer arithmetic on the operands' values and one
rounding. Every finite value is a whole number of units of 2^-1074, the smallest subnormal. The format is written from
R14 to R20, not taken from a library (entry 13). -/

namespace Sys2Proof.Machine

/-- A binary64 pattern by what it stands for (R14). -/
inductive Unpacked where
  /-- any NaN, quiet or signalling, of any payload and sign (R17) -/
  | nan
  /-- an infinity, negative or not -/
  | inf (neg : Bool)
  /-- the value `± sig × 2^exp` in units of 2^-1074; a zero keeps its sign -/
  | fin (neg : Bool) (sig exp : Nat)
deriving DecidableEq, Repr

/-- The canonical quiet NaN (R17, R23). -/
def canonNaN : F64 := 0x7FF8000000000000

/-- Read the fields of a pattern (R14): exponent all ones is an infinity or a NaN, exponent 0 a zero or a subnormal,
any other exponent `e` the normal number `(2^52 + f) × 2^(e - 1)` units. -/
def unpack (a : F64) : Unpacked :=
  let neg := a.getLsbD 63
  let e := (a.extractLsb' 52 11).toNat
  let f := (a.extractLsb' 0 52).toNat
  if e = 0x7FF then (if f = 0 then .inf neg else .nan)
  else if e = 0 then .fin neg f 0
  else .fin neg (2 ^ 52 + f) (e - 1)

/-- The pattern with the given sign bit and the given exponent and fraction fields, as one 63-bit number. -/
def withSign (neg : Bool) (mag : Nat) : F64 := BitVec.ofNat 64 ((if neg then 2 ^ 63 else 0) + mag)

/-- The signed zero. -/
def zeroOf (neg : Bool) : F64 := withSign neg 0

/-- The signed infinity. -/
def infOf (neg : Bool) : F64 := withSign neg 0x7FF0000000000000

/-- `m / 2^sh` to the nearest integer, ties to even (R15). -/
def roundShift (m sh : Nat) : Nat :=
  let q := m >>> sh
  let r := m % 2 ^ sh
  if 2 ^ sh < 2 * r ∨ (2 * r = 2 ^ sh ∧ q % 2 = 1) then q + 1 else q

/-- The one rounding of R15: the exact value `± m × 2^e` units to the nearest binary64 value, ties to even. `E` is the
exponent of the result's last place, never below one unit (gradual underflow); the significand is at most 2^53, and adding
it to `E × 2^52` gives the exponent and fraction fields, its top bit or its carry counting into the exponent. What
exceeds the largest finite value becomes the infinity of its sign. -/
def roundToF64 (neg : Bool) (m : Nat) (e : Int) : F64 :=
  if m = 0 then zeroOf neg
  else
    let E := max 0 ((m.log2 : Int) - 52 + e)
    let sig := roundShift m (E - e).toNat * 2 ^ (e - E).toNat
    let mag := E.toNat * 2 ^ 52 + sig
    if 0x7FF0000000000000 ≤ mag then infOf neg else withSign neg mag

/-- `± m` as an integer. -/
def signed (neg : Bool) (m : Nat) : Int := if neg then -(m : Int) else (m : Int)

/-- The exact value of a finite pattern in units of 2^-1074; `none` for an infinity or a NaN. -/
def units (a : F64) : Option Int :=
  match unpack a with
  | .fin neg sig exp => some (signed neg (sig * 2 ^ exp))
  | _ => none

/-- Whether the pattern is a NaN. -/
def isNaN (a : F64) : Bool :=
  match unpack a with
  | .nan => true
  | _ => false

/-- NaN or an infinity: the exponent field is all ones (R206). -/
def isNonfinite (a : F64) : Bool := decide (a.extractLsb' 52 11 = 0x7FF#11)

/-- `fadd` (R16). An exact sum of zero is +0 unless both addends are negative (zeros). -/
def fadd (a b : F64) : F64 :=
  match unpack a, unpack b with
  | .nan, _ => canonNaN
  | _, .nan => canonNaN
  | .inf s, .inf t => if s = t then infOf s else canonNaN
  | .inf s, .fin _ _ _ => infOf s
  | .fin _ _ _, .inf t => infOf t
  | .fin s m e, .fin t n f =>
    let k := min e f
    let z := signed s (m * 2 ^ (e - k)) + signed t (n * 2 ^ (f - k))
    if z = 0 then zeroOf (s && t) else roundToF64 (decide (z < 0)) z.natAbs k

/-- `fneg` (R17, R18): inverts the sign bit; a NaN gives the canonical NaN. -/
def fneg (a : F64) : F64 := if isNaN a then canonNaN else a ^^^ 0x8000000000000000

/-- `fsub(a, b) = fadd(a, fneg(b))` (R16). -/
def fsub (a b : F64) : F64 := fadd a (fneg b)

/-- `fmul` (R16). The product of the two values is `m × n × 2^(e + f)` units of 2^-2148. -/
def fmul (a b : F64) : F64 :=
  match unpack a, unpack b with
  | .nan, _ => canonNaN
  | _, .nan => canonNaN
  | .inf s, .inf t => infOf (s ^^ t)
  | .inf s, .fin t n _ => if n = 0 then canonNaN else infOf (s ^^ t)
  | .fin s m _, .inf t => if m = 0 then canonNaN else infOf (s ^^ t)
  | .fin s m e, .fin t n f => roundToF64 (s ^^ t) (m * n) ((e : Int) + f - 1074)

/-- `flt` (R19): less than as real numbers, an infinity beyond every finite value, false with a NaN. -/
def flt (a b : F64) : Bool :=
  match unpack a, unpack b with
  | .nan, _ => false
  | _, .nan => false
  | .inf s, .inf t => s && !t
  | .inf s, .fin _ _ _ => s
  | .fin _ _ _, .inf t => !t
  | .fin s m e, .fin t n f => decide (signed s (m * 2 ^ e) < signed t (n * 2 ^ f))

/-- `fgt(a, b) = flt(b, a)` (R19). -/
def fgt (a b : F64) : Bool := flt b a

/-- The integer part toward minus infinity of a finite value of `z` units. -/
def floorUnits (z : Int) : Int := z / 2 ^ 1074

/-- `ffloor` (R20). Zeros and infinities stay; a result of zero from a positive operand is +0. -/
def ffloor (a : F64) : F64 :=
  match unpack a with
  | .nan => canonNaN
  | .inf s => infOf s
  | .fin s m e =>
    if m = 0 then a
    else
      let z := floorUnits (signed s (m * 2 ^ e))
      roundToF64 (decide (z < 0)) z.natAbs 1074

/-- `imod256` (R13): the floored remainder modulo 256 of the integer that the operand is; 0 for a NaN or an infinity.
The datapath gives it only results of `ffloor`; a finite operand that is no integer is floored first (entry 10). -/
def imod256 (a : F64) : BitVec 8 :=
  match units a with
  | none => 0
  | some z => BitVec.ofNat 8 (floorUnits z % 256).toNat

/-- `u32_to_unit` (R21): the f64 of value `t / 2^32`, exact. -/
def u32ToUnit (t : U32) : F64 := roundToF64 false t.toNat 1042

/-- `bit_to_f64` (R22): +0.0 or 1.0. -/
def bitToF64 (b : Bool) : F64 := if b then 0x3FF0000000000000 else 0x0000000000000000

/-- The f64 whose value is a small integer (R125's `mf`). -/
def natToF64 (n : Nat) : F64 := roundToF64 false n 1074

/-! The constants of R23, read-only patterns of the datapath. -/

/-- `SQRT3`, an intermediate of the other constants only. -/
def cSQRT3 : F64 := 0x3FFBB67AE8584CAA
/-- `F2` (R152). -/
def cF2 : F64 := 0x3FD76CF5D0B09954
/-- `G2` (R152). -/
def cG2 : F64 := 0x3FCB0CB174DF99C8
/-- `G2X2`, twice `G2`, exact (R152). -/
def cG2X2 : F64 := 0x3FDB0CB174DF99C8
/-- `HALF`. -/
def cHALF : F64 := 0x3FE0000000000000
/-- `ONE`. -/
def cONE : F64 := 0x3FF0000000000000
/-- `ZERO`, +0.0. -/
def cZERO : F64 := 0x0000000000000000
/-- `SCALE`, 70.0. -/
def cSCALE : F64 := 0x4051800000000000

end Sys2Proof.Machine
end

