-- ==== Sys2Proof/Machine/Integer.lean ====
section
/-! DEFINITION. The integer primitives of SNC (R10 to R12, R125, R199): the whole list of its integer arithmetic but
`imod256`, which takes an f64 and stands with the floating-point primitives. -/

namespace Sys2Proof.Machine

/-- `add32` (R10): addition modulo 2^32, no flag. -/
def add32 (a b : U32) : U32 := a + b

/-- `mul32` (R10): the low 32 bits of the product. -/
def mul32 (a b : U32) : U32 := a * b

/-- `shr32` (R11): logical right shift, zeros come in. -/
def shr32 (a : U32) (n : Nat) : U32 := a >>> n

/-- `xor32` (R11). -/
def xor32 (a b : U32) : U32 := a ^^^ b

/-- `and255` (R12): `k mod 256`. -/
def and255 (k : Nat) : Nat := k % 256

/-- `mod12` of a byte (R12), as a PM12 entry of 4 bits (R7, R48). -/
def mod12 (v : BitVec 8) : BitVec 4 := BitVec.ofNat 4 (v.toNat % 12)

/-- The scaled draw of shuffle step `i` from the output word `t` (R125): `i + ((t × (256 − i)) >> 32)`. -/
def drawIndex (i : Nat) (t : U32) : Nat := i + (t.toNat * (256 - i)) >>> 32

end Sys2Proof.Machine
end

