-- ==== Sys2Proof/Machine/ResetRom.lean ====
section
/-! DEFINITION. The reset contents of the tables (R53, R231): the constants of vector V20, which a ROM may hold. -/

namespace Sys2Proof.Machine

/-- The 256 entries of vector V20, sixteen a row: `PERM[0..255]` after SEED with seed 0 and after reset (R53). -/
def resetRom : List (BitVec 8) :=
  [100, 217, 175, 129, 197, 242, 137, 165, 238, 140, 54, 132, 157, 134, 181, 240] ++
  [2, 193, 172, 94, 103, 74, 131, 229, 247, 70, 191, 38, 226, 1, 106, 108] ++
  [10, 24, 237, 249, 148, 44, 176, 243, 65, 235, 43, 81, 84, 169, 33, 32] ++
  [135, 21, 244, 91, 51, 79, 105, 166, 128, 12, 177, 228, 162, 25, 83, 213] ++
  [209, 69, 50, 241, 104, 160, 61, 64, 225, 136, 130, 45, 224, 17, 123, 4] ++
  [195, 122, 255, 143, 185, 139, 7, 55, 88, 171, 178, 141, 90, 152, 199, 96] ++
  [60, 200, 102, 214, 167, 223, 57, 3, 219, 26, 56, 126, 190, 142, 16, 246] ++
  [159, 138, 46, 97, 174, 208, 30, 112, 49, 85, 212, 39, 161, 36, 42, 67] ++
  [218, 37, 163, 98, 215, 248, 154, 99, 133, 14, 114, 189, 0, 144, 82, 158] ++
  [202, 204, 149, 47, 173, 252, 11, 22, 216, 206, 230, 86, 95, 89, 41, 236] ++
  [231, 254, 23, 58, 66, 34, 116, 125, 153, 203, 48, 111, 227, 78, 186, 146] ++
  [156, 205, 15, 221, 80, 151, 187, 71, 119, 170, 124, 121, 192, 93, 77, 73] ++
  [101, 120, 145, 118, 251, 115, 253, 180, 155, 19, 222, 110, 92, 13, 184, 109] ++
  [211, 233, 27, 20, 201, 234, 8, 6, 62, 28, 182, 220, 179, 75, 107, 87] ++
  [127, 147, 250, 40, 18, 63, 5, 183, 196, 188, 72, 35, 59, 113, 168, 210] ++
  [68, 245, 194, 232, 117, 239, 52, 207, 150, 9, 31, 53, 164, 76, 29, 198]

/-- What a PERM entry holds after reset: the base permutation twice (R53, R49). This is what an index not listed in
`Tables.perm` reads as (entry 5). -/
def resetPerm (k : Nat) : BitVec 8 := resetRom.getD (and255 k) 0

/-- What a PM12 entry holds after reset: PERM's modulo 12 (R53, R49). -/
def resetPm12 (k : Nat) : BitVec 4 := mod12 (resetPerm k)

end Sys2Proof.Machine
end

