-- ==== Sys2Proof/Machine/State.lean ====
section
/-! DEFINITION. The state of SNC as plain data: the registers of R32 that hold storage, the two tables (R47, R48), and
the model's own fields for the host's side of the port. -/

namespace Sys2Proof.Machine

/-- STATUS (R34): five bits are real, bits 31:5 read 0 and are never written (entry 20). -/
structure Status where
  /-- bit 0: a SEED command has completed since reset -/
  seeded : Bool
  /-- bit 1: a write to CMD carried a reserved command word -/
  illegal : Bool
  /-- bit 2: NOISE or FBM wrote a NaN or an infinity to RESULT -/
  nonfinite : Bool
  /-- bit 3: a transaction named a reserved index or wrote a read-only register -/
  badaccess : Bool
  /-- bit 4: NOISE or FBM was issued while SEEDED was 0 -/
  unseeded : Bool
deriving DecidableEq, Repr

/-- The table RAM (R47, R48): PERM, 512 entries of 8 bits, and PM12, 512 entries of 4 bits. Each is a list of
(index, entry) pairs in canonical form: indices rising, all below 512, no entry equal to its reset content, which is
what an unlisted index reads as (`Tables.wf`; entry 5). -/
structure Tables where
  perm : List Host.Cell
  pm12 : List (Nat × BitVec 4)
deriving DecidableEq, Repr

/-- What the host presents to SNC: the machine's only input. -/
inductive HostEvent where
  /-- a transaction, as its 70-bit word (R100) -/
  | xact (w : XactWord)
  /-- an assertion of the reset signal (R230). `cut` is the transaction that was in progress and is abandoned (R233),
  `none` when reset comes between transactions. -/
  | reset (cut : Option XactWord)
deriving DecidableEq, Repr

/-- The whole architectural state (R31) and, last, two fields of the model's own. CMD, TBL_DATA and ID hold no
storage (R31); there is no program counter (R45). -/
structure State where
  /-- STATUS (R34) -/
  status : Status
  /-- SEED (R35) -/
  seed : U32
  /-- X (R36) -/
  x : F64
  /-- Y (R36) -/
  y : F64
  /-- OCTAVES (R37) -/
  octaves : U32
  /-- AMP (R38) -/
  amp : F64
  /-- FREQ (R38) -/
  freq : F64
  /-- PERS (R38) -/
  pers : F64
  /-- LAC (R38) -/
  lac : F64
  /-- RESULT (R39) -/
  result : F64
  /-- RNG_STATE (R40) -/
  rngState : U32
  /-- RNG_RAW (R41) -/
  rngRaw : U32
  /-- TBL_ADDR (R42) -/
  tblAddr : BitVec 9
  /-- PERM and PM12 (R47, R48) -/
  tables : Tables
  /-- THE MODEL'S OWN: the events the host has presented and SNC has not yet performed, oldest first (R81; entry 1) -/
  pending : List HostEvent
  /-- THE MODEL'S OWN: the value the last RD since reset returned to the host (R100, R192; entry 2) -/
  readData : Option Data
deriving DecidableEq, Repr

/-- SNC has no fault: "A model's step function for SNC is total: it has no fault outcome" (R200). No constructor, so
no meaning can raise one. -/
inductive Fault where
deriving DecidableEq, Repr

/-- SNC refuses no transaction (R200). -/
inductive Refusal where
  /-- Raised by an arm of `exec` whose instruction has no meaning yet, with its mnemonic. Safe: the run stops. No arm
  raises it. -/
  | notModelled (mnemonic : String)
deriving DecidableEq, Repr

/-- The state when reset completes, with `RESET_TABLE = zero_seeded` (R53): every flag 0, every register at the value
of R32, every table entry at its reset content (nothing listed). The last two fields are the model's own: nothing is
presented, no RD has completed (DESIGN CHOICE, entries 1 and 2). -/
def State.reset : State where
  status := { seeded := false, illegal := false, nonfinite := false, badaccess := false, unseeded := false }
  seed := 0
  x := 0
  y := 0
  octaves := 0
  amp := 0
  freq := 0
  pers := 0
  lac := 0
  result := 0
  rngState := 0x99423F47
  rngRaw := 0x0D11923D
  tblAddr := 0
  tables := { perm := [], pm12 := [] }
  pending := []
  readData := none

end Sys2Proof.Machine
end

