-- ==== Sys2Proof/Machine/Ops.lean ====
section
/-! DEFINITION. The operations over the table RAM (R9, R73 to R75): one entry read, one entry written, the pair of
tables read and written by index. -/

namespace Sys2Proof.Machine

/-- `MemRead` of one entry (R9): the listed value, or the reset content of an index that is not listed. -/
def readEntry {w : Nat} (dflt : Nat → BitVec w) (a : Nat) : List (Nat × BitVec w) → BitVec w
  | [] => dflt a
  | (b, v) :: rest => if a = b then v else readEntry dflt a rest

/-- `MemWrite` of one entry (R9), keeping the canonical form: the list stays in rising order and never lists an entry
equal to its reset content. -/
def writeEntry {w : Nat} (dflt : Nat → BitVec w) (a : Nat) (v : BitVec w) :
    List (Nat × BitVec w) → List (Nat × BitVec w)
  | [] => if v = dflt a then [] else [(a, v)]
  | (b, u) :: rest =>
    if b < a then (b, u) :: writeEntry dflt a v rest
    else
      let tail := if a = b then rest else (b, u) :: rest
      if v = dflt a then tail else (a, v) :: tail

/-- The canonical form of one table: indices rising, all below 512, no entry equal to its reset content. -/
def entriesWf {w : Nat} (dflt : Nat → BitVec w) (m : List (Nat × BitVec w)) : Bool :=
  decide (m.Pairwise fun p q => p.1 < q.1) &&
    m.all fun p => decide (p.1 < Config.tblN) && decide (p.2 ≠ dflt p.1)

/-- The canonical form of the table RAM. -/
def Tables.wf (tb : Tables) : Bool := entriesWf resetPerm tb.perm && entriesWf resetPm12 tb.pm12

/-- `PERM[a]` (R9, R47). Commands and the host form indices 0 to 511 only (R90; entry 6). -/
def readPerm (tb : Tables) (a : Nat) : BitVec 8 := readEntry resetPerm a tb.perm

/-- `PM12[a]` (R9, R48). -/
def readPm12 (tb : Tables) (a : Nat) : BitVec 4 := readEntry resetPm12 a tb.pm12

/-- `PERM[a] <- v` (R9). -/
def writePerm (tb : Tables) (a : Nat) (v : BitVec 8) : Tables :=
  { tb with perm := writeEntry resetPerm a v tb.perm }

/-- `PM12[a] <- v` (R9). -/
def writePm12 (tb : Tables) (a : Nat) (v : BitVec 4) : Tables :=
  { tb with pm12 := writeEntry resetPm12 a v tb.pm12 }

/-- The loop that fills both tables from a base permutation `f` (R135, R140, R231), after its first `n` iterations
`k = 0, ..., n - 1`: `PERM[k]` becomes `f(k mod 256)` and `PM12[k]` that value modulo 12. -/
def fillTables (f : Nat → BitVec 8) (tb : Tables) : Nat → Tables
  | 0 => tb
  | k + 1 =>
    let v := f (and255 k)
    writePm12 (writePerm (fillTables f tb k) k v) k (mod12 v)

end Sys2Proof.Machine
end

