-- ==== Sys2Proof/Machine/Flags.lean ====
section
/-! DEFINITION. The flags of STATUS (R34, R203 to R207): raising one, the word the host reads, the host's clearing
write, and the flag side of NOISE and FBM. SNC has no trap: raising a flag is all that an error does (R200, R211). -/

namespace Sys2Proof.Machine

/-- The four sticky flags (R203). SEEDED is no error and is not raised. -/
inductive Flag where
  | illegal | nonfinite | badaccess | unseeded
deriving DecidableEq, Repr

/-- The code of a flag, which is its bit of STATUS (R203). -/
def Flag.code : Flag → Nat
  | .illegal => 1
  | .nonfinite => 2
  | .badaccess => 3
  | .unseeded => 4

/-- Set one flag of STATUS. -/
def Status.set (st : Status) : Flag → Status
  | .illegal => { st with illegal := true }
  | .nonfinite => { st with nonfinite := true }
  | .badaccess => { st with badaccess := true }
  | .unseeded => { st with unseeded := true }

/-- `raise F()` (R203): set the flag's bit of STATUS, and continue. -/
def raise (f : Flag) (s : State) : State := { s with status := s.status.set f }

/-- `if c: raise F()`. -/
def raiseIf (c : Bool) (f : Flag) (s : State) : State := if c then raise f s else s

/-- STATUS as the 32-bit word a host reads (R34): bits 31:5 are 0. -/
def Status.word (st : Status) : U32 :=
  0#27 ++ BitVec.ofBool st.unseeded ++ BitVec.ofBool st.badaccess ++ BitVec.ofBool st.nonfinite ++
    BitVec.ofBool st.illegal ++ BitVec.ofBool st.seeded

/-- `STATUS[4:1] <- STATUS[4:1] and not d[4:1]` (R34, R191): writing 1 clears; bit 0 and all other bits of `d` are
ignored. -/
def Status.clear (st : Status) (d : Data) : Status :=
  { st with
    illegal := st.illegal && !d.getLsbD 1
    nonfinite := st.nonfinite && !d.getLsbD 2
    badaccess := st.badaccess && !d.getLsbD 3
    unseeded := st.unseeded && !d.getLsbD 4 }

/-- How NOISE and FBM start (R150, R180, R207): UNSEEDED is raised when no SEED has completed since reset. -/
def noteUnseeded (s : State) : State := raiseIf (!s.status.seeded) .unseeded s

/-- How NOISE and FBM end (R150, R180, R206): RESULT takes the value, and NONFINITE is raised when that value is a NaN
or an infinity. -/
def writeResult (v : F64) (s : State) : State := raiseIf (isNonfinite v) .nonfinite { s with result := v }

end Sys2Proof.Machine
end

