-- ==== Sys2Proof/Machine/Noise.lean ====
section
/-! DEFINITION. The NOISE command and its kernel (R150 to R165), by sub-block: (c) the simplex-to-lattice coordinate
converter, (d) the gradient-index multiplexer, (e) the dot product and falloff evaluator. -/

namespace Sys2Proof.Machine

/-- What the coordinate converter hands on: the cell origin, the offsets of the three corners, and the middle corner
`(i1, j1)`, which is (1, 0) or (0, 1). -/
structure Lattice where
  i : F64
  j : F64
  x0 : F64
  y0 : F64
  i1 : Bool
  j1 : Bool
  x1 : F64
  y1 : F64
  x2 : F64
  y2 : F64
deriving DecidableEq, Repr

/-- Steps 2 to 5 of R151 (R153 to R156): skew, floor, unskew, triangle, corner offsets. -/
def toLattice (x y : F64) : Lattice :=
  let s := fmul (fadd x y) cF2
  let i := ffloor (fadd x s)
  let j := ffloor (fadd y s)
  let t := fmul (fadd i j) cG2
  let x0 := fsub x (fsub i t)
  let y0 := fsub y (fsub j t)
  let i1 := fgt x0 y0
  let j1 := !i1
  { i := i
    j := j
    x0 := x0
    y0 := y0
    i1 := i1
    j1 := j1
    x1 := fadd (fsub x0 (bitToF64 i1)) cG2
    y1 := fadd (fsub y0 (bitToF64 j1)) cG2
    x2 := fadd (fsub x0 cONE) cG2X2
    y2 := fadd (fsub y0 cONE) cG2X2 }

/-- The gradient index of the corner at lattice offset `(di, dj)` from the wrapped cell origin `(ii, jj)` (R158):
`PM12[ii + di + PERM[jj + dj]]`, plain additions with no reduction. -/
def hashCorner (tb : Tables) (ii jj : BitVec 8) (di dj : Nat) : BitVec 4 :=
  readPm12 tb (ii.toNat + di + (readPerm tb (jj.toNat + dj)).toNat)

/-- The gradient selection and sum of steps 8 (R161, R162): `u` is `x` for `h < 8`, else `y`; `v` is `y` for `h < 4`,
else +0.0; bit 0 of `h` negates `u`, bit 1 negates `v`. Defined for all sixteen `h`. -/
def dot (h : BitVec 4) (xc yc : F64) : F64 :=
  let u := if h.toNat < 8 then xc else yc
  let v := if h.toNat < 4 then yc else cZERO
  fadd (if h.getLsbD 0 then fneg u else u) (if h.getLsbD 1 then fneg v else v)

/-- The falloff of a corner (R160): `(0.5 − x²) − y²`, in this order. -/
def falloff (xc yc : F64) : F64 := fsub (fsub cHALF (fmul xc xc)) (fmul yc yc)

/-- The contribution of a corner (R164): +0.0 when the falloff is below zero, else its fourth power, by two squarings,
times the gradient dot. A zero or NaN falloff takes the product. -/
def corner (gi : BitVec 4) (xc yc : F64) : F64 :=
  let tc := falloff xc yc
  if flt tc cZERO then cZERO
  else
    let t2 := fmul tc tc
    let t4 := fmul t2 t2
    fmul t4 (dot gi xc yc)

/-- `noise2(x, y)` (R151), a function of the coordinates and the tables. -/
def noise2 (tb : Tables) (x y : F64) : F64 :=
  let l := toLattice x y
  let ii := imod256 l.i
  let jj := imod256 l.j
  let n0 := corner (hashCorner tb ii jj 0 0) l.x0 l.y0
  let n1 := corner (hashCorner tb ii jj l.i1.toNat l.j1.toNat) l.x1 l.y1
  let n2 := corner (hashCorner tb ii jj 1 1) l.x2 l.y2
  fmul cSCALE (fadd (fadd n0 n1) n2)

/-- NOISE (R150). -/
def execNoise (s : State) : Host.Outcome State Fault Refusal :=
  .next (writeResult (noise2 s.tables s.x s.y) (noteUnseeded s))

end Sys2Proof.Machine
end

