-- ==== Sys2Proof/Machine/Fbm.lean ====
section
/-! DEFINITION. The FBM command, sub-block (f): the fBm accumulator (R180 to R188). -/

namespace Sys2Proof.Machine

/-- The command-local values of FBM (R50, R181): the running total and the working amplitude and frequency. -/
structure Octave where
  total : F64
  amp : F64
  freq : F64
deriving DecidableEq, Repr

/-- One octave (R180, R182), over a kernel: scale the point, sample, scale the sample, accumulate, then update the
amplitude and the frequency. -/
def fbmStep (kernel : F64 → F64 → F64) (x y pers lac : F64) (o : Octave) : Octave :=
  let xf := fmul x o.freq
  let yf := fmul y o.freq
  let n := kernel xf yf
  let c := fmul n o.amp
  { total := fadd o.total c, amp := fmul o.amp pers, freq := fmul o.freq lac }

/-- The octave loop (R182): octave 1 first. -/
def fbmLoop (kernel : F64 → F64 → F64) (x y pers lac : F64) : Nat → Octave → Octave
  | 0, o => o
  | n + 1, o => fbmLoop kernel x y pers lac n (fbmStep kernel x y pers lac o)

/-- The accumulator over a kernel (R180, R188): the total after `n` octaves from +0.0. -/
def fbmTotal (kernel : F64 → F64 → F64) (x y : F64) (n : Nat) (amp freq pers lac : F64) : F64 :=
  (fbmLoop kernel x y pers lac n { total := cZERO, amp := amp, freq := freq }).total

/-- FBM (R180): the operand registers are read and not written (R181). -/
def execFbm (s : State) : Host.Outcome State Fault Refusal :=
  .next (writeResult (fbmTotal (noise2 s.tables) s.x s.y s.octaves.toNat s.amp s.freq s.pers s.lac) (noteUnseeded s))

end Sys2Proof.Machine
end

