-- ==== Sys2Proof/Syntax.lean ====
section
/-! DEFINITION. The syntax of host transactions and commands: one constructor of `Instr` per row of
opcode_table.json. -/

namespace Sys2Proof

/-- The register indices by name (R32). The indices 0x10 to 0x1F are reserved and hold no state (R55). -/
inductive Reg where
  | cmd | status | seed | x | y | octaves | amp | freq | pers | lac
  | result | rngState | rngRaw | tblAddr | tblData | id
  /-- a reserved index, 0x10 to 0x1F -/
  | reserved (idx : BitVec 5)
deriving DecidableEq, Repr

/-- The four commands (R103). -/
inductive Command where
  | nop | seed | noise | fbm
deriving DecidableEq, Repr

/-- One constructor per row of opcode_table.json: the four commands, which a write to CMD carries (R103, R104), and
the two host transactions (R100). -/
inductive Instr where
  /-- NOP, command word 0x0000_0000 (R190) -/
  | nop
  /-- SEED, command word 0x0000_0001 (R135) -/
  | seed
  /-- NOISE, command word 0x0000_0002 (R150) -/
  | noise
  /-- FBM, command word 0x0000_0003 (R180) -/
  | fbm
  /-- WR(idx, d), transaction word `{1, idx, d}` (R191) -/
  | wr (r : Reg) (d : Data)
  /-- RD(idx), transaction word `{0, idx, 0}` (R192) -/
  | rd (r : Reg)
deriving DecidableEq, Repr

/-- A command as a row of the opcode table. -/
def Command.toInstr : Command → Instr
  | .nop => .nop
  | .seed => .seed
  | .noise => .noise
  | .fbm => .fbm

end Sys2Proof
end

