-- ==== Sys2Proof/WellFormed.lean ====
section
/-! DEFINITION. Which terms and which raw words are well formed. Everything else is ruled out by the types. -/

namespace Sys2Proof

/-- A reserved index is one of 0x10 to 0x1F (R55); every other register has a name of its own (R32). -/
def Reg.wellFormed : Reg → Bool
  | .reserved idx => decide (0x10 ≤ idx.toNat)
  | _ => true

/-- An instruction is well formed when the register it names is. -/
def Instr.wellFormed : Instr → Bool
  | .nop => true
  | .seed => true
  | .noise => true
  | .fbm => true
  | .wr r _ => r.wellFormed
  | .rd r => r.wellFormed

/-- A transaction word in the form a host writes it: the data of a RD "is written as 0" (R100). SNC ignores those bits,
so the decoder does not ask for it. -/
def xactWordWellFormed (w : XactWord) : Bool :=
  w.getLsbD 69 || decide (w.extractLsb' 0 64 = 0#64)

/-- A command word that is not reserved: bits 31:8 zero and an opcode below 4 (R104). -/
def cmdWordWellFormed (w : CmdWord) : Bool :=
  decide (w.extractLsb' 8 24 = 0#24) && decide ((w.extractLsb' 0 8).toNat < 4)

end Sys2Proof
end

