-- ==== Sys2Proof/Decode.lean ====
section
/-! DEFINITION. The decoder of transaction words and command words, total on any word and rejecting by name, and after
it the encoder, both written from the layouts of R100, R102, R103 and the index column of R32. -/

namespace Sys2Proof

/-- Why a word is no instruction. A reserved command word is no error of the machine: WR to CMD turns it into the flag
ILLEGAL (R107). -/
inductive DecodeReject where
  /-- a command word with a non-zero bit in 31:8 (R102, R104) -/
  | reservedBits
  /-- a command word with opcode 0x04 to 0xFF (R103, R104) -/
  | reservedOpcode
  /-- the table has no row of that width, or the number has more bits than the width -/
  | badWidth
deriving DecidableEq, Repr

/-- The register a 5-bit index names (R32, R55). -/
def Reg.ofIdx (idx : BitVec 5) : Reg :=
  match idx.toNat with
  | 0x00 => .cmd
  | 0x01 => .status
  | 0x02 => .seed
  | 0x03 => .x
  | 0x04 => .y
  | 0x05 => .octaves
  | 0x06 => .amp
  | 0x07 => .freq
  | 0x08 => .pers
  | 0x09 => .lac
  | 0x0A => .result
  | 0x0B => .rngState
  | 0x0C => .rngRaw
  | 0x0D => .tblAddr
  | 0x0E => .tblData
  | 0x0F => .id
  | _ => .reserved idx

/-- Decode a command word (R104): bits 31:8 must be 0, bits 7:0 select the command. -/
def decodeCommand (w : CmdWord) : Except DecodeReject Command :=
  if w.extractLsb' 8 24 ≠ 0#24 then .error .reservedBits
  else
    match (w.extractLsb' 0 8).toNat with
    | 0x00 => .ok .nop
    | 0x01 => .ok .seed
    | 0x02 => .ok .noise
    | 0x03 => .ok .fbm
    | _ => .error .reservedOpcode

/-- Decode a transaction word (R100): bit 69 is `we`, bits 68:64 the index, bits 63:0 the data, which a RD ignores.
Every 70-bit word is a transaction. -/
def decodeXact (w : XactWord) : Instr :=
  let r := Reg.ofIdx (w.extractLsb' 64 5)
  if w.getLsbD 69 then .wr r (w.extractLsb' 0 64) else .rd r

/-- Decode a row of opcode_table.json by its width: a command word of 32 bits, or a transaction word of 70 bits, which
is 72 in whole bytes (bits 71:70 zero). -/
def decodeRow (nbits w : Nat) : Except DecodeReject Instr :=
  if nbits = 32 ∧ w < 2 ^ 32 then (decodeCommand (BitVec.ofNat 32 w)).map Command.toInstr
  else if (nbits = 70 ∨ nbits = 72) ∧ w < 2 ^ 70 then .ok (decodeXact (BitVec.ofNat 70 w))
  else .error .badWidth

/-- The instruction the decoder reads from a row's bits, `none` where it rejects them. -/
def decodeTableWord (nbits w : Nat) : Option Instr :=
  match decodeRow nbits w with
  | .ok i => some i
  | .error _ => none

/-- The index of a register (R32). -/
def Reg.idx : Reg → BitVec 5
  | .cmd => 0x00
  | .status => 0x01
  | .seed => 0x02
  | .x => 0x03
  | .y => 0x04
  | .octaves => 0x05
  | .amp => 0x06
  | .freq => 0x07
  | .pers => 0x08
  | .lac => 0x09
  | .result => 0x0A
  | .rngState => 0x0B
  | .rngRaw => 0x0C
  | .tblAddr => 0x0D
  | .tblData => 0x0E
  | .id => 0x0F
  | .reserved idx => idx

/-- The command word of a command (R103). -/
def encodeCommand : Command → CmdWord
  | .nop => 0x00000000
  | .seed => 0x00000001
  | .noise => 0x00000002
  | .fbm => 0x00000003

/-- `{1, idx, d}` (R100, R110). -/
def wrWord (r : Reg) (d : Data) : XactWord := 1#1 ++ r.idx ++ d

/-- `{0, idx, 0}` (R100, R110). -/
def rdWord (r : Reg) : XactWord := 0#1 ++ r.idx ++ 0#64

/-- The write to CMD that carries a command word, bits 63:32 of the data zero (R104). -/
def cmdXactWord (w : CmdWord) : XactWord := wrWord .cmd (w.zeroExtend 64)

/-- The transaction the host presents to have an instruction performed: a command travels in a write to CMD. -/
def encodeXact : Instr → XactWord
  | .nop => cmdXactWord (encodeCommand .nop)
  | .seed => cmdXactWord (encodeCommand .seed)
  | .noise => cmdXactWord (encodeCommand .noise)
  | .fbm => cmdXactWord (encodeCommand .fbm)
  | .wr r d => wrWord r d
  | .rd r => rdWord r

/-- The encoder: the width in whole bytes of the instruction's row of opcode_table.json, and its bits. -/
def encode : Instr → Nat × Nat
  | .nop => (32, (encodeCommand .nop).toNat)
  | .seed => (32, (encodeCommand .seed).toNat)
  | .noise => (32, (encodeCommand .noise).toNat)
  | .fbm => (32, (encodeCommand .fbm).toNat)
  | .wr r d => (72, (wrWord r d).toNat)
  | .rd r => (72, (rdWord r).toNat)

end Sys2Proof
end

