-- ==== Sys2Proof/Machine/Operands.lean ====
section
/-! DEFINITION. The register file as the host sees it (R32): the value each index reads and what a write to each index
stores (R191, R192), narrow registers included (R71). -/

namespace Sys2Proof.Machine

/-- ID's constant, "SNC1" (R44). -/
def idValue : Data := 0x00000000534E4331

/-- The table window (R43, R194): `{PM12[a], PERM[a]}` at `a = TBL_ADDR`. -/
def tableView (s : State) : BitVec 12 :=
  readPm12 s.tables s.tblAddr.toNat ++ readPerm s.tables s.tblAddr.toNat

/-- The 64-bit value a read of each register returns (R192); a narrow register is zero-extended (R71). -/
def readReg (r : Reg) (s : State) : Data :=
  match r with
  | .cmd => 0
  | .status => s.status.word.zeroExtend 64
  | .seed => s.seed.zeroExtend 64
  | .x => s.x
  | .y => s.y
  | .octaves => s.octaves.zeroExtend 64
  | .amp => s.amp
  | .freq => s.freq
  | .pers => s.pers
  | .lac => s.lac
  | .result => s.result
  | .rngState => s.rngState.zeroExtend 64
  | .rngRaw => s.rngRaw.zeroExtend 64
  | .tblAddr => s.tblAddr.zeroExtend 64
  | .tblData => (tableView s).zeroExtend 64
  | .id => idValue
  | .reserved _ => 0

/-- Whether a read of the register raises BADACCESS (R192, R195): a reserved index only. -/
def readIsBad : Reg → Bool
  | .reserved _ => true
  | _ => false

/-- What a write to each register but CMD stores (R191): a narrow register keeps the low bits (R71), STATUS clears
flags, a read-only register or a reserved index stores nothing and raises BADACCESS (R195). CMD has no storage (R33);
its command is the transaction's affair. -/
def writeReg (r : Reg) (d : Data) (s : State) : State :=
  match r with
  | .cmd => s
  | .status => { s with status := s.status.clear d }
  | .seed => { s with seed := d.setWidth 32 }
  | .x => { s with x := d }
  | .y => { s with y := d }
  | .octaves => { s with octaves := d.setWidth 32 }
  | .amp => { s with amp := d }
  | .freq => { s with freq := d }
  | .pers => { s with pers := d }
  | .lac => { s with lac := d }
  | .result => raise .badaccess s
  | .rngState => raise .badaccess s
  | .rngRaw => raise .badaccess s
  | .tblAddr => { s with tblAddr := d.setWidth 9 }
  | .tblData => raise .badaccess s
  | .id => raise .badaccess s
  | .reserved _ => raise .badaccess s

end Sys2Proof.Machine
end

