-- ==== Sys2Proof/Machine/Prng.lean ====
section
/-! DEFINITION. The PRNG core, sub-block (a) (R120 to R128): its two micro-operations, used by SEED only. -/

namespace Sys2Proof.Machine

/-- The generator: its state `a` (RNG_STATE) and its last output word `t` (RNG_RAW) (R40, R41). -/
structure Prng where
  a : U32
  t : U32
deriving DecidableEq, Repr

/-- `prng_create(seed)` (R121): the state starts at the seed, the output word keeps its old value. -/
def prngCreate (seed : U32) (g : Prng) : Prng := { g with a := seed }

/-- The output word of the state `a` (R122, its lines 2 to 6). -/
def prngMix (a : U32) : U32 :=
  let t := xor32 a (shr32 a 16)
  let t := mul32 t 0x21F0AAAD
  let t := xor32 t (shr32 t 15)
  let t := mul32 t 0x735A2D97
  xor32 t (shr32 t 15)

/-- `prng_next()` (R122), the state it leaves: the state steps by the constant, the output word is the mixed state. -/
def prngNext (g : Prng) : Prng :=
  let a := add32 g.a 0x9E3779B9
  { a := a, t := prngMix a }

/-- The f64 that `prng_next()` returns, `u = t / 2^32` (R122), from the generator it leaves. SEED draws with the integer
form of R125 and does not need it. -/
def prngUnit (g : Prng) : F64 := u32ToUnit g.t

end Sys2Proof.Machine
end

