-- ==== Sys2Proof/Machine/Seed.lean ====
section
/-! DEFINITION. The SEED command, sub-block (b): the permutation table builder (R135 to R146). -/

namespace Sys2Proof.Machine

/-- The command-local values of SEED between two iterations of the shuffle: the generator and the working array `p`
(R50, R135). -/
structure Shuffle where
  prng : Prng
  p : List (BitVec 8)
deriving DecidableEq, Repr

/-- The working array before the shuffle: `p[i] = i` (R137). -/
def identityArray : List (BitVec 8) := (List.range Config.permN).map (BitVec.ofNat 8)

/-- The swap of `p[i]` and `p[r]` (R139). -/
def swapEntries (p : List (BitVec 8)) (i r : Nat) : List (BitVec 8) :=
  let tmp := p.getD i 0
  (p.set i (p.getD r 0)).set r tmp

/-- One iteration of the shuffle (R138): one draw, then the swap of `p[i]` and `p[r]`. -/
def shuffleStep (i : Nat) (st : Shuffle) : Shuffle :=
  let g := prngNext st.prng
  { prng := g, p := swapEntries st.p i (drawIndex i g.t) }

/-- The shuffle after its first `n` iterations, `i = 0, ..., n - 1` in this order (R138). -/
def shuffle (start : Shuffle) : Nat → Shuffle
  | 0 => start
  | i + 1 => shuffleStep i (shuffle start i)

/-- The command-local part of SEED for a seed (R135): create the generator, start from the identity, make the 255
iterations. `raw` is what RNG_RAW held before; the first draw replaces it. -/
def buildPermutation (seed raw : U32) : Shuffle :=
  shuffle { prng := prngCreate seed { a := 0, t := raw }, p := identityArray } Config.shuffleSteps

/-- What a build stores (R135, R140, R141): all 512 entries of both tables and the two PRNG registers. -/
def storeBuild (b : Shuffle) (s : State) : State :=
  { s with
    tables := fillTables (fun k => b.p.getD k 0) s.tables Config.tblN
    rngState := b.prng.a
    rngRaw := b.prng.t }

/-- What SEED leaves after a build (R135): the build stored, and SEEDED set. -/
def completeSeed (b : Shuffle) (s : State) : State :=
  { storeBuild b s with status := { s.status with seeded := true } }

/-- SEED (R135, R136). -/
def execSeed (s : State) : Host.Outcome State Fault Refusal :=
  .next (completeSeed (buildPermutation s.seed s.rngRaw) s)

end Sys2Proof.Machine
end

