-- ==== Sys2Proof/Machine/Xact.lean ====
section
/-! DEFINITION. NOP and the two host transactions (R190 to R195). -/

namespace Sys2Proof.Machine

/-- NOP (R190): reads nothing, writes nothing. -/
def execNop (s : State) : Host.Outcome State Fault Refusal := .next s

/-- Decode and execute a command word (R104): the command it selects, run to completion; a reserved word sets ILLEGAL
and does nothing else (R107, R204). -/
def execCommandWord (w : CmdWord) (s : State) : Host.Outcome State Fault Refusal :=
  match decodeCommand w with
  | .ok .nop => execNop s
  | .ok .seed => execSeed s
  | .ok .noise => execNoise s
  | .ok .fbm => execFbm s
  | .error _ => .next (raise .illegal s)

/-- WR (R191): a write to CMD presents `d[31:0]` to the core; every other index stores or flags. -/
def execWr (r : Reg) (d : Data) (s : State) : Host.Outcome State Fault Refusal :=
  match r with
  | .cmd => execCommandWord (d.setWidth 32) s
  | _ => .next (writeReg r d s)

/-- RD (R192): the value goes to the host (`readData`, the model's own record of it); a reserved index reads 0 and
raises BADACCESS; no other read changes the machine (R78). -/
def execRd (r : Reg) (s : State) : Host.Outcome State Fault Refusal :=
  .next { raiseIf (readIsBad r) .badaccess s with readData := some (readReg r s) }

end Sys2Proof.Machine
end

