-- ==== Sys2Proof/Machine/Dispatch.lean ====
section
/-! DEFINITION. One arm per constructor of `Instr`. -/

namespace Sys2Proof.Machine

def exec (i : Instr) (s : State) : Host.Outcome State Fault Refusal :=
  match i with
  | .nop => Sys2Proof.Machine.execNop s
  | .seed => Sys2Proof.Machine.execSeed s
  | .noise => Sys2Proof.Machine.execNoise s
  | .fbm => Sys2Proof.Machine.execFbm s
  | .wr r d => Sys2Proof.Machine.execWr r d s
  | .rd r => Sys2Proof.Machine.execRd r s

end Sys2Proof.Machine
end

