-- ==== Sys2Proof/Machine/Reset.lean ====
section
/-! DEFINITION. Reset (R53, R230, R231): the state when it completes, for both values of `RESET_TABLE`. -/

namespace Sys2Proof.Machine

/-- The state when reset completes (R53, R231). With `identity` no draw is made and both PRNG registers are 0. -/
def resetWith : Config.ResetTable → State
  | .zeroSeeded => State.reset
  | .identity =>
    { State.reset with
      tables := fillTables (fun k => BitVec.ofNat 8 k) State.reset.tables Config.tblN
      rngState := 0
      rngRaw := 0 }

/-- What an assertion of reset does (R230, R233): the whole state is the reset state, whatever was going on. The host's
later events are its own and stay (entry 7). -/
def applyReset (later : List HostEvent) : State := { resetWith Config.resetTable with pending := later }

end Sys2Proof.Machine
end

