-- ==== Sys2Proof/Machine/Step.lean ====
section
/-! DEFINITION. One step: the next event the host has presented (R26, R81). -/

namespace Sys2Proof.Machine

/-- One step. A transaction is decoded and performed to its end, with the whole command it may start (R82); an assertion
of reset gives the reset state (R230, R233); with nothing presented the core is idle and holds its state (R220;
entry 3). -/
def step (s : State) : Host.Outcome State Fault Refusal :=
  match s.pending with
  | [] => .next s
  | .xact w :: later => exec (decodeXact w) { s with pending := later }
  | .reset _ :: later => .next (applyReset later)

/-- The transaction that has a row of opcode_table.json performed: a 32-bit row is a command word, which a write to CMD
carries (R104); any other row is a transaction word itself (R100). -/
def fetchXact (nbits w : Nat) : XactWord :=
  if nbits = 32 then cmdXactWord (BitVec.ofNat 32 w) else BitVec.ofNat 70 w

/-- `s` with the host presenting that instruction next (entry 1). -/
def State.withFetchWord (s : State) (nbits w : Nat) : State :=
  { s with pending := .xact (fetchXact nbits w) :: s.pending }

end Sys2Proof.Machine
end

