-- ==== Sys2Proof/Safety.lean ====
section
/-! DEFINITION. The terms in which claims about SNC are stated: the real value of a pattern, the properties of the
tables that hold whenever a transaction observes them (R49), and what a good state is. SNC has no faults, so a safe run
is any run (R200). -/

namespace Sys2Proof.Machine

/-- Finite: neither an infinity nor a NaN. -/
def isFinite (a : F64) : Bool := !isNonfinite a

/-- The real value of a finite pattern (R14); 0 for the others, which no claim uses. -/
def toRat (a : F64) : ℚ :=
  match units a with
  | some z => (z : ℚ) / 2 ^ 1074
  | none => 0

/-- The exponent of overflow (R15): a real of this magnitude or more, halfway between the largest finite value and
2^1024, rounds to an infinity. -/
def overflowBound : ℚ := 2 ^ 1024 - 2 ^ 970

/-- `r` is the finite binary64 value nearest to the real `q`, ties to the even significand (R15). -/
structure IsNearest (q : ℚ) (r : F64) : Prop where
  finite : isFinite r = true
  nearest : ∀ b : F64, isFinite b = true → |toRat r - q| ≤ |toRat b - q|
  even : ∀ b : F64, isFinite b = true → |toRat b - q| = |toRat r - q| → toRat b = toRat r ∨ r.getLsbD 0 = false

/-- `r` is the real `q` rounded once to binary64 (R15). -/
def IsRounded (q : ℚ) (r : F64) : Prop :=
  if |q| < overflowBound then IsNearest q r else r = infOf (decide (q < 0))

/-- R49 (a): `PERM[0..255]` is a permutation of 0 to 255. -/
def IsPermutation (tb : Tables) : Prop := ∀ v : BitVec 8, ∃! n : Nat, n < 256 ∧ readPerm tb n = v

/-- The table invariants of R49, with the canonical form of the model's tables. -/
structure TablesInv (tb : Tables) : Prop where
  wf : tb.wf = true
  perm : IsPermutation tb
  dupPerm : ∀ n < 256, readPerm tb n = readPerm tb (n + 256)
  pm12 : ∀ n < 512, (readPm12 tb n).toNat = (readPerm tb n).toNat % 12
  dupPm12 : ∀ n < 256, readPm12 tb n = readPm12 tb (n + 256)

/-- What holds whenever a host transaction observes SNC: the table invariants (R49), and a NaN in RESULT is the
canonical one (R39). -/
structure Inv (s : State) : Prop where
  tables : TablesInv s.tables
  result : isNaN s.result = true → s.result = canonNaN

/-- The tables and the PRNG registers are those that one SEED with seed `S` leaves (R135, R140, R141). -/
def BuiltFrom (S : U32) (s : State) : Prop :=
  let b := buildPermutation S 0
  s.tables.wf = true ∧
    (∀ n < 512, readPerm s.tables n = b.p.getD (n % 256) 0 ∧ readPm12 s.tables n = mod12 (b.p.getD (n % 256) 0)) ∧
    s.rngState = b.prng.a ∧ s.rngRaw = b.prng.t

end Sys2Proof.Machine

namespace Sys2Proof

/-- The register names a host may not write (R32, R195): read-only, or reserved. -/
def Reg.notWritable : Reg → Bool
  | .result => true
  | .rngState => true
  | .rngRaw => true
  | .tblData => true
  | .id => true
  | .reserved _ => true
  | _ => false

/-- Whether an instruction runs the command: as itself, or as the write to CMD that carries its word (R104). -/
def Instr.runs (c : Command) (i : Instr) : Prop :=
  i = c.toInstr ∨ ∃ d : Data, i = .wr .cmd d ∧ d.setWidth 32 = encodeCommand c

end Sys2Proof
end

