-- ==== Sys2Proof/Certificates/Slice0/Obligations.lean ====
section
/-! DEFINITION. The statements about SNC, one `def` each, in the order of OBLIGATIONS.json. A docstring names the rule of
spec/ a statement formalises. -/

section Statements

open Sys2Proof Sys2Proof.Machine

/-! Encoding and decoding -/

/-- The encoder's word of a well-formed instruction decodes to that instruction, every operand at every value
(R100, R103, R110). -/
def Obligations.DecodeOfEncodeIsTheInstruction : Prop :=
  ∀ i : Instr, i.wellFormed = true → decodeTableWord (encode i).1 (encode i).2 = some i

/-- Every 70-bit word is a transaction with a well-formed register; a word in the form a host writes it is the encoder's
word of what it decodes to; a command word that is not reserved is the word of its command (R100, R103, R104). -/
def Obligations.EncodeOfDecodeIsTheWord : Prop :=
  (∀ w : XactWord, (decodeXact w).wellFormed = true) ∧
    (∀ w : XactWord, xactWordWellFormed w = true → encode (decodeXact w) = (72, w.toNat)) ∧
    (∀ w : CmdWord, cmdWordWellFormed w = true → ∃ c, decodeCommand w = .ok c ∧ encodeCommand c = w) ∧
    (∀ w : CmdWord, cmdWordWellFormed w = false → ∃ e, decodeCommand w = .error e)

/-- The words that the spec writes out: the three transaction words of R110 and the four command words of R103. -/
def Obligations.WrittenOutWordsDecode : Prop :=
  decodeTableWord 72 0x200000000000000002 = some (.wr .cmd 0x2) ∧
    decodeTableWord 72 0x233FD0000000000000 = some (.wr .x 0x3FD0000000000000) ∧
    decodeTableWord 72 0x0A0000000000000000 = some (.rd .result) ∧
    decodeTableWord 32 0x00000000 = some .nop ∧ decodeTableWord 32 0x00000001 = some .seed ∧
    decodeTableWord 32 0x00000002 = some .noise ∧ decodeTableWord 32 0x00000003 = some .fbm

/-- R104: a command word with a bit of 31:8 set or an opcode of 4 or more is reserved; any other runs the command its low
byte selects. Only the low 32 bits of the data count, and nothing of the state. -/
def Obligations.CommandWordSelectsTheCommand : Prop :=
  ∀ (s : State) (d : Data),
    ((d.extractLsb' 8 24 ≠ 0#24 ∨ 4 ≤ (d.extractLsb' 0 8).toNat) →
      exec (.wr .cmd d) s = .next { s with status := { s.status with illegal := true } }) ∧
    (d.extractLsb' 8 24 = 0#24 →
      ((d.extractLsb' 0 8).toNat = 0 → exec (.wr .cmd d) s = exec .nop s) ∧
      ((d.extractLsb' 0 8).toNat = 1 → exec (.wr .cmd d) s = exec .seed s) ∧
      ((d.extractLsb' 0 8).toNat = 2 → exec (.wr .cmd d) s = exec .noise s) ∧
      ((d.extractLsb' 0 8).toNat = 3 → exec (.wr .cmd d) s = exec .fbm s))

/-- R107, R204: any command word but the four sets ILLEGAL and changes nothing else; the spec's examples. -/
def Obligations.ReservedCommandWordsOnlySetIllegal : Prop :=
  ∀ s : State,
    (∀ d : Data, d.setWidth 32 ≠ 0x00000000#32 → d.setWidth 32 ≠ 0x00000001#32 → d.setWidth 32 ≠ 0x00000002#32 →
      d.setWidth 32 ≠ 0x00000003#32 →
        exec (.wr .cmd d) s = .next { s with status := { s.status with illegal := true } }) ∧
    exec (.wr .cmd 0x4) s = .next { s with status := { s.status with illegal := true } } ∧
    exec (.wr .cmd 0x102) s = .next { s with status := { s.status with illegal := true } } ∧
    exec (.wr .cmd 0xFFFFFFFF00000002) s = exec .noise s

/-! The step, reset, and what holds of every run -/

/-- When the host's next event is a transaction, the step is `exec` of the instruction it decodes to, with that event
taken from the queue; the queue is the model's own (entry 1). -/
def Obligations.StepRunsTheDecodedInstruction : Prop :=
  ∀ (s : State) (w : XactWord) (later : List HostEvent), s.pending = .xact w :: later →
    (decodeXact w).wellFormed = true ∧ step s = exec (decodeXact w) { s with pending := later }

/-- An instruction placed as the next one runs in the next step, and a reserved command word placed so only sets ILLEGAL;
placing is the model's own (entry 1). -/
def Obligations.PlacedInstructionRunsNext : Prop :=
  (∀ (i : Instr) (s : State), i.wellFormed = true → step (s.withFetchWord (encode i).1 (encode i).2) = exec i s) ∧
    ∀ (w : CmdWord) (s : State), cmdWordWellFormed w = false →
      step (s.withFetchWord 32 w.toNat) = .next { s with status := { s.status with illegal := true } }

/-- With nothing presented SNC is idle and holds its state (a sentence of R220). That an idle step stutters is the model's
choice, entry 3. -/
def Obligations.IdleStepHoldsTheState : Prop :=
  ∀ s : State, s.pending = [] → step s = .next s

/-- An assertion of reset leaves the reset state, whatever the state was and whether or not a transaction was cut
short (R230, R233). That the host's later events stay presented is the model's choice, entry 7. -/
def Obligations.ResetEventLeavesTheResetState : Prop :=
  ∀ (s : State) (cut : Option XactWord) (later : List HostEvent), s.pending = .reset cut :: later →
    step s = .next { State.reset with pending := later }

/-- No instruction and no step faults or is refused (R200). -/
def Obligations.EveryTransactionCompletes : Prop :=
  (∀ (i : Instr) (s : State), ∃ t, exec i s = .next t) ∧ ∀ s : State, ∃ t, step s = .next t

/-- R53, R231: every register at its reset value, and the tables and PRNG registers those that a SEED with seed 0 leaves,
from any tables; after that SEED, SEEDED is 1, after reset it is 0. With `RESET_TABLE = identity`: the tables of the
identity, both PRNG registers 0, the rest the same. -/
def Obligations.ResetStateIsAsStated : Prop :=
  State.reset.status.word = 0 ∧ State.reset.seed = 0 ∧ State.reset.octaves = 0 ∧ State.reset.tblAddr = 0 ∧
    State.reset.x = 0 ∧ State.reset.y = 0 ∧ State.reset.amp = 0 ∧ State.reset.freq = 0 ∧ State.reset.pers = 0 ∧
    State.reset.lac = 0 ∧ State.reset.result = 0 ∧ readReg .id State.reset = 0x00000000534E4331 ∧
    State.reset.rngState = 0x99423F47 ∧ State.reset.rngRaw = 0x0D11923D ∧
    (∀ s : State, s.tables.wf = true → s.seed = 0 →
      exec .seed s = .next { s with
        tables := State.reset.tables, rngState := State.reset.rngState, rngRaw := State.reset.rngRaw,
        status := { s.status with seeded := true } }) ∧
    resetWith .zeroSeeded = State.reset ∧
    (resetWith .identity = { State.reset with
      tables := (resetWith .identity).tables, rngState := 0, rngRaw := 0 }) ∧
    (∀ n < 512, readPerm (resetWith .identity).tables n = BitVec.ofNat 8 (n % 256) ∧
      (readPm12 (resetWith .identity).tables n).toNat = n % 256 % 12) ∧
    TablesInv State.reset.tables ∧ TablesInv (resetWith .identity).tables

/-- The invariant holds of the reset state (R49, R53). -/
def Obligations.ResetSatisfiesTheInvariant : Prop := Inv State.reset

/-- R49: the table invariants hold after reset and after every SEED, from any tables, so the sum of a wrapped coordinate
part (0 to 256) and a PERM value is an index of the table. -/
def Obligations.TableInvariantsAfterResetAndSeed : Prop :=
  TablesInv State.reset.tables ∧
    (∀ s t : State, s.tables.wf = true → exec .seed s = .next t → TablesInv t.tables) ∧
    ∀ (tb : Tables) (k n : Nat), k ≤ 256 → k + (readPerm tb n).toNat ≤ 511

/-- From every state in which the table invariants hold and a NaN in RESULT is the canonical one, every step leaves such
a state (R39, R49). -/
def Obligations.EveryStepKeepsTheInvariant : Prop :=
  ∀ s t : State, Inv s → step s = .next t → Inv t

/-- The tables and the PRNG registers change only by a SEED, as a command or as the write to CMD that carries it: no
other instruction writes an entry (R47, R54, R194). -/
def Obligations.OnlySeedChangesTheTables : Prop :=
  ∀ (i : Instr) (s t : State), exec i s = .next t → ¬ i.runs .seed →
    t.tables = s.tables ∧ t.rngState = s.rngState ∧ t.rngRaw = s.rngRaw

/-- In every state a step leaves, the tables and the PRNG registers are together what one and the same seed builds, if
they were so before; they are so at reset (R82, R84, R230). -/
def Obligations.TablesAndPrngAreOneBuild : Prop :=
  (∃ S : U32, BuiltFrom S State.reset) ∧
    ∀ s t : State, (∃ S : U32, BuiltFrom S s) → step s = .next t → ∃ S : U32, BuiltFrom S t

/-- SEEDED becomes 1 exactly by a SEED and becomes 0 exactly by reset (R34, R136, R234). -/
def Obligations.SeededIsSetBySeedAndClearedByReset : Prop :=
  (∀ (i : Instr) (s t : State), exec i s = .next t →
    (t.status.seeded = true ↔ s.status.seeded = true ∨ i.runs .seed)) ∧
  ∀ s t : State, step s = .next t →
    (t.status.seeded = true ↔
      (s.status.seeded = true ∧ ∀ cut, s.pending.head? ≠ some (.reset cut)) ∨
        ∃ w, s.pending.head? = some (.xact w) ∧ (decodeXact w).runs .seed)

/-! The integer primitives and the PRNG -/

/-- R10, R11, R12. -/
def Obligations.IntegerPrimitives : Prop :=
  (∀ a b : U32, (add32 a b).toNat = (a.toNat + b.toNat) % 2 ^ 32 ∧ (mul32 a b).toNat = a.toNat * b.toNat % 2 ^ 32) ∧
    (∀ (a : U32) (n : Nat), 0 < n → n < 32 → (shr32 a n).toNat = a.toNat / 2 ^ n) ∧
    (∀ (a b : U32) (k : Nat), (xor32 a b).getLsbD k = (a.getLsbD k ^^ b.getLsbD k)) ∧
    (∀ k : Nat, and255 k = k % 256 ∧ and255 k = (BitVec.ofNat 8 k).toNat) ∧
    ∀ v : BitVec 8, (mod12 v).toNat = v.toNat % 12

/-- R122: one call of `prng_next`, line by line, and its example. -/
def Obligations.PrngStep : Prop :=
  (∀ g : Prng,
    let a := g.a + 0x9E3779B9#32
    let t1 := a ^^^ (a >>> 16)
    let t2 := t1 * 0x21F0AAAD#32
    let t3 := t2 ^^^ (t2 >>> 15)
    let t4 := t3 * 0x735A2D97#32
    let t5 := t4 ^^^ (t4 >>> 15)
    prngNext g = { a := a, t := t5 } ∧ prngUnit (prngNext g) = u32ToUnit t5) ∧
  ∀ t : U32, prngNext { a := 0, t := t } = { a := 0x9E3779B9, t := 0x64625032 } ∧
    prngUnit (prngNext { a := 0, t := t }) = 0x3FD918940C800000

/-- R123: the state after `n` draws, the output word as a function of the state, the period of 2^32 draws, and the zero
output of the zero state. -/
def Obligations.PrngStateSequence : Prop :=
  (∀ (S : U32) (g : Prng) (n : Nat),
    (prngNext^[n] (prngCreate S g)).a = add32 S (mul32 (BitVec.ofNat 32 n) 0x9E3779B9) ∧
      (1 ≤ n → (prngNext^[n] (prngCreate S g)).t = prngMix (prngNext^[n] (prngCreate S g)).a)) ∧
    (∀ (S : U32) (g : Prng) (m n : Nat),
      (prngNext^[m] (prngCreate S g)).a = (prngNext^[n] (prngCreate S g)).a ↔ m % 2 ^ 32 = n % 2 ^ 32) ∧
    prngMix 0 = 0 ∧ u32ToUnit 0 = 0

/-- R21: `u32_to_unit` is exact and stays below 1. -/
def Obligations.UnitIsExact : Prop :=
  (∀ t : U32, isFinite (u32ToUnit t) = true ∧ toRat (u32ToUnit t) = (t.toNat : ℚ) / 2 ^ 32 ∧
    0 ≤ toRat (u32ToUnit t) ∧ toRat (u32ToUnit t) ≤ 1 - 1 / 2 ^ 32 ∧ u32ToUnit t ≠ cONE) ∧
    u32ToUnit 0 = 0

/-- R125: the floating-point form of the scaled draw, its product and its floor exact, gives the same index as the
integer form; the example. -/
def Obligations.ScaledDrawFormsAgree : Prop :=
  (∀ (i : Nat) (t : U32), i ≤ 254 →
    toRat (natToF64 (256 - i)) = ((256 - i : Nat) : ℚ) ∧
    toRat (fmul (u32ToUnit t) (natToF64 (256 - i))) = ((t.toNat * (256 - i) : Nat) : ℚ) / 2 ^ 32 ∧
    isFinite (ffloor (fmul (u32ToUnit t) (natToF64 (256 - i)))) = true ∧
    (drawIndex i t : ℚ) = i + toRat (ffloor (fmul (u32ToUnit t) (natToF64 (256 - i)))) ∧
    drawIndex i t = i + (t.toNat * (256 - i)) / 2 ^ 32) ∧
  drawIndex 0 0x64625032 = 100

/-! SEED -/

/-- R138, R139, R140: the shuffle, draw by draw and swap by swap, and the fill, from any tables; and SEED's whole frame.
`p i` is the working array before iteration `i`. -/
def Obligations.SeedShufflesAndFills : Prop :=
  ∀ s : State, s.tables.wf = true →
    ∃ (p : Nat → Nat → BitVec 8) (t : State),
      exec .seed s = .next t ∧
      t = { s with
        tables := t.tables
        rngState := s.seed + 0x99423F47#32
        rngRaw := prngMix (s.seed + 0x99423F47#32)
        status := { s.status with seeded := true } } ∧
      (∀ k < 256, p 0 k = BitVec.ofNat 8 k) ∧
      (∀ i < 255,
        let draw := prngMix (s.seed + BitVec.ofNat 32 (i + 1) * 0x9E3779B9#32)
        let r := i + draw.toNat * (256 - i) / 2 ^ 32
        i ≤ r ∧ r ≤ 255 ∧ p (i + 1) i = p i r ∧ p (i + 1) r = p i i ∧
          ∀ k < 256, k ≠ i → k ≠ r → p (i + 1) k = p i k) ∧
      (∀ i ≤ 255, ∀ v : BitVec 8, ∃! k : Nat, k < 256 ∧ p i k = v) ∧
      (∀ k < 256,
        readPerm t.tables k = p 255 k ∧ readPerm t.tables (k + 256) = p 255 k ∧
          (readPm12 t.tables k).toNat = (p 255 k).toNat % 12 ∧
          (readPm12 t.tables (k + 256)).toNat = (p 255 k).toNat % 12) ∧
      TablesInv t.tables

/-- R141: the PRNG registers after SEED, for every seed, and for seeds 0 and 1337. -/
def Obligations.SeedLeavesThePrngRegisters : Prop :=
  mul32 255 0x9E3779B9 = 0x99423F47 ∧
  (∀ s t : State, exec .seed s = .next t →
    t.rngState = add32 s.seed 0x99423F47 ∧
      t.rngRaw = (prngNext^[255] (prngCreate s.seed { a := s.rngState, t := s.rngRaw })).t) ∧
  (∀ s t : State, exec .seed s = .next t → s.seed = 0 → t.rngState = 0x99423F47 ∧ t.rngRaw = 0x0D11923D) ∧
  ∀ s t : State, exec .seed s = .next t → s.seed = 1337 → t.rngState = 0x99424480 ∧ t.rngRaw = 0xB78B2EBD

/-- R142: two SEED commands with the same seed leave the same tables, whatever the two states before them. -/
def Obligations.SameSeedSameTables : Prop :=
  ∀ s s' t t' : State, s.tables.wf = true → s'.tables.wf = true → s.seed = s'.seed →
    exec .seed s = .next t → exec .seed s' = .next t' → t.tables = t'.tables

/-! Floating point -/

/-- `fadd` of finite operands is the exact sum rounded once to nearest, ties to even; an exact sum of zero has sign +
unless both addends are −0 (R15, R16). -/
def Obligations.FaddIsCorrectlyRounded : Prop :=
  ∀ a b : F64, isFinite a = true → isFinite b = true →
    (toRat a + toRat b ≠ 0 → IsRounded (toRat a + toRat b) (fadd a b)) ∧
      (toRat a + toRat b = 0 → fadd a b = zeroOf (a.getLsbD 63 && b.getLsbD 63))

/-- `fmul` of finite operands is the exact product rounded once to nearest, ties to even, and its sign is the exclusive or
of the operand signs, also when the result is zero (R15, R16). -/
def Obligations.FmulIsCorrectlyRounded : Prop :=
  ∀ a b : F64, isFinite a = true → isFinite b = true →
    IsRounded (toRat a * toRat b) (fmul a b) ∧ (fmul a b).getLsbD 63 = (a.getLsbD 63 ^^ b.getLsbD 63) ∧
      (toRat a * toRat b = 0 → fmul a b = zeroOf (a.getLsbD 63 ^^ b.getLsbD 63))

/-- The special operands of `fadd`, `fsub` and `fmul` (R16). -/
def Obligations.SpecialOperands : Prop :=
  (∀ a b : F64, isNaN a = true ∨ isNaN b = true →
    fadd a b = canonNaN ∧ fsub a b = canonNaN ∧ fmul a b = canonNaN) ∧
  (∀ a b : F64, fsub a b = fadd a (fneg b)) ∧
  (∀ s t : Bool, fadd (infOf s) (infOf (!s)) = canonNaN ∧ fadd (infOf s) (infOf s) = infOf s ∧
    fmul (infOf s) (infOf t) = infOf (s ^^ t) ∧
    fmul (zeroOf s) (infOf t) = canonNaN ∧ fmul (infOf t) (zeroOf s) = canonNaN) ∧
  (∀ (s : Bool) (b : F64), isFinite b = true →
    fadd (infOf s) b = infOf s ∧ fadd b (infOf s) = infOf s ∧
      (toRat b ≠ 0 → fmul (infOf s) b = infOf (s ^^ b.getLsbD 63) ∧ fmul b (infOf s) = infOf (s ^^ b.getLsbD 63))) ∧
  (∀ a : F64, isFinite a = true → fadd a (fneg a) = zeroOf false)

/-- R17: a primitive's NaN is the canonical one, and every NaN operand is treated alike. -/
def Obligations.NaNIsCanonicalAndAlike : Prop :=
  (∀ a b : F64,
    (isNaN (fadd a b) = true → fadd a b = canonNaN) ∧ (isNaN (fsub a b) = true → fsub a b = canonNaN) ∧
    (isNaN (fmul a b) = true → fmul a b = canonNaN) ∧ (isNaN (fneg a) = true → fneg a = canonNaN) ∧
    (isNaN (ffloor a) = true → ffloor a = canonNaN)) ∧
  (∀ t : U32, isNaN (u32ToUnit t) = false) ∧ (∀ b : Bool, isNaN (bitToF64 b) = false) ∧
  ∀ a c b : F64, isNaN a = true → isNaN c = true →
    fadd a b = fadd c b ∧ fadd b a = fadd b c ∧ fsub a b = fsub c b ∧ fsub b a = fsub b c ∧
    fmul a b = fmul c b ∧ fmul b a = fmul b c ∧ fneg a = canonNaN ∧ ffloor a = ffloor c ∧
    flt a b = flt c b ∧ flt b a = flt b c ∧ imod256 a = imod256 c

/-- R18. -/
def Obligations.NegationFlipsTheSign : Prop :=
  (∀ a : F64, isNaN a = false → fneg a = a ^^^ 0x8000000000000000#64 ∧ toRat (fneg a) = -toRat a ∧
    isFinite (fneg a) = isFinite a) ∧
    fneg (zeroOf false) = zeroOf true

/-- R19: `flt` is the order of the values, the infinities at its ends, and false with a NaN. -/
def Obligations.LessThanIsTheOrderOfValues : Prop :=
  ∀ a b : F64,
    (flt a b = true ↔ isNaN a = false ∧ isNaN b = false ∧
      ((isFinite a = true ∧ isFinite b = true ∧ toRat a < toRat b) ∨
        (a = infOf true ∧ b ≠ infOf true) ∨ (b = infOf false ∧ a ≠ infOf false))) ∧
    fgt a b = flt b a

/-- R20: `ffloor` is the exact floor of a finite value; the zeros, the infinities, the values near zero, the values that
are integral by size, and NaN as stated. -/
def Obligations.FloorIsExact : Prop :=
  (∀ a : F64, isFinite a = true →
    isFinite (ffloor a) = true ∧ toRat (ffloor a) = ⌊toRat a⌋ ∧
    (-1 < toRat a → toRat a < 0 → ffloor a = 0xBFF0000000000000) ∧
    (0 < toRat a → toRat a < 1 → ffloor a = 0) ∧
    (2 ^ 52 ≤ |toRat a| → ffloor a = a)) ∧
  (∀ s : Bool, ffloor (zeroOf s) = zeroOf s ∧ ffloor (infOf s) = infOf s) ∧
  ∀ a : F64, isNaN a = true → ffloor a = canonNaN

/-- R13: `imod256` of an integral value is its floored remainder, which is its low 8 bits in two's complement. -/
def Obligations.WrapIsTheFlooredRemainder : Prop :=
  (∀ (a : F64) (I : ℤ), isFinite a = true → toRat a = I →
    ((imod256 a).toNat : ℤ) = I - 256 * ⌊(I : ℚ) / 256⌋ ∧ imod256 a = BitVec.ofInt 8 I ∧
      (2 ^ 61 ≤ |I| → imod256 a = 0)) ∧
  imod256 0xBFF0000000000000 = 255 ∧ imod256 0xC070000000000000 = 0 ∧
  ∀ a : F64, isFinite a = false → imod256 a = 0

/-- The constants (R23): the pattern of the square root of 3 is the nearest one (a half unit of its last place to either
side encloses it), the others are the stated expressions of it, exactly or in the primitives. -/
def Obligations.ConstantsAreTheStatedExpressions : Prop :=
  (toRat cSQRT3 - 1 / 2 ^ 53) ^ 2 < 3 ∧ 3 < (toRat cSQRT3 + 1 / 2 ^ 53) ^ 2 ∧
    2 * toRat cF2 = toRat (fsub cSQRT3 cONE) ∧ 6 * toRat cG2 = toRat (fsub 0x4008000000000000 cSQRT3) ∧
    cG2X2 = fmul 0x4000000000000000 cG2 ∧ toRat cG2X2 = 2 * toRat cG2 ∧
    toRat cHALF = 1 / 2 ∧ toRat cONE = 1 ∧ toRat cSCALE = 70 ∧ cZERO = 0 ∧ canonNaN = 0x7FF8000000000000 ∧
    cF2 = 0x3FD76CF5D0B09954 ∧ cG2 = 0x3FCB0CB174DF99C8 ∧ cG2X2 = 0x3FDB0CB174DF99C8

/-- Adding a zero of either sign leaves every non-zero value as it is, and subtracting +0.0 leaves every value as it is,
−0 too (sentences of R156, R162, R184). -/
def Obligations.AddingZeroKeepsTheValue : Prop :=
  (∀ (a : F64) (s : Bool), isNaN a = false → a ≠ zeroOf false → a ≠ zeroOf true →
    fadd a (zeroOf s) = a ∧ fadd (zeroOf s) a = a) ∧
  (∀ a : F64, isNaN a = false → fsub a (bitToF64 false) = a) ∧
  fadd (zeroOf true) (zeroOf false) = zeroOf false ∧ fadd (zeroOf true) (zeroOf true) = zeroOf true

/-! NOISE -/

/-- NOISE completes on every state: RESULT takes the sample of X and Y under the tables, UNSEEDED is raised when SEEDED is
0, NONFINITE when the sample is a NaN or an infinity, and nothing else changes (R54, R150). -/
def Obligations.NoiseWritesItsSample : Prop :=
  ∀ s : State,
    exec .noise s = .next { s with
      result := noise2 s.tables s.x s.y
      status := { s.status with
        unseeded := s.status.unseeded || !s.status.seeded
        nonfinite := s.status.nonfinite || isNonfinite (noise2 s.tables s.x s.y) } } ∧
    (isNonfinite (noise2 s.tables s.x s.y) = true ↔
      isNaN (noise2 s.tables s.x s.y) = true ∨ ∃ neg, noise2 s.tables s.x s.y = infOf neg)

/-- R151: the kernel, line by line. -/
def Obligations.KernelIsAsWritten : Prop :=
  ∀ (tb : Tables) (x y : F64),
    noise2 tb x y =
      (let s := fmul (fadd x y) cF2
       let i := ffloor (fadd x s)
       let j := ffloor (fadd y s)
       let t := fmul (fadd i j) cG2
       let X0 := fsub i t
       let Y0 := fsub j t
       let x0 := fsub x X0
       let y0 := fsub y Y0
       let i1 : Nat := if fgt x0 y0 then 1 else 0
       let j1 : Nat := if fgt x0 y0 then 0 else 1
       let x1 := fadd (fsub x0 (bitToF64 (decide (i1 = 1)))) cG2
       let y1 := fadd (fsub y0 (bitToF64 (decide (j1 = 1)))) cG2
       let x2 := fadd (fsub x0 cONE) cG2X2
       let y2 := fadd (fsub y0 cONE) cG2X2
       let ii := (imod256 i).toNat
       let jj := (imod256 j).toNat
       let gi0 := readPm12 tb (ii + (readPerm tb jj).toNat)
       let gi1 := readPm12 tb (ii + i1 + (readPerm tb (jj + j1)).toNat)
       let gi2 := readPm12 tb (ii + 1 + (readPerm tb (jj + 1)).toNat)
       let n0 := corner gi0 x0 y0
       let n1 := corner gi1 x1 y1
       let n2 := corner gi2 x2 y2
       fmul cSCALE (fadd (fadd n0 n1) n2))

/-- The contribution of a corner: +0.0 for a falloff below zero, else the falloff's fourth power, by two squarings, times
the gradient dot, so a NaN falloff gives NaN (R164). The falloff is never above 0.5, and is 0.5 when both squares are
zero (sentences of R160). -/
def Obligations.CornerContribution : Prop :=
  ∀ (gi : BitVec 4) (xc yc : F64),
    let tc := fsub (fsub cHALF (fmul xc xc)) (fmul yc yc)
    (flt tc cZERO = true → corner gi xc yc = cZERO) ∧
      (flt tc cZERO = false →
        corner gi xc yc = fmul (fmul (fmul tc tc) (fmul tc tc)) (dot gi xc yc)) ∧
      (isNaN tc = true → corner gi xc yc = canonNaN) ∧
      flt cHALF tc = false ∧ (fmul xc xc = cZERO → fmul yc yc = cZERO → tc = cHALF)

/-- R163: the twelve gradients, the four unreachable indices, and the values at (2.0, 3.0). -/
def Obligations.GradientTable : Prop :=
  (∀ x y : F64,
    dot 0 x y = fadd x y ∧ dot 1 x y = fadd (fneg x) y ∧ dot 2 x y = fadd x (fneg y) ∧
    dot 3 x y = fadd (fneg x) (fneg y) ∧
    dot 4 x y = fadd x (zeroOf false) ∧ dot 5 x y = fadd (fneg x) (zeroOf false) ∧
    dot 6 x y = fadd x (zeroOf true) ∧ dot 7 x y = fadd (fneg x) (zeroOf true) ∧
    dot 8 x y = fadd y (zeroOf false) ∧ dot 9 x y = fadd (fneg y) (zeroOf false) ∧
    dot 10 x y = fadd y (zeroOf true) ∧ dot 11 x y = fadd (fneg y) (zeroOf true) ∧
    dot 12 x y = dot 8 x y ∧ dot 13 x y = dot 9 x y ∧ dot 14 x y = dot 10 x y ∧ dot 15 x y = dot 11 x y) ∧
  (List.range 12).map (fun h => toRat (dot (BitVec.ofNat 4 h) 0x4000000000000000 0x4008000000000000)) =
    [5, 1, -1, -5, 2, -2, 2, -2, 3, -3, 3, -3]

/-- R167: a NaN or infinite coordinate, or finite ones whose sum or skewed sum overflows, make the sample the canonical
NaN under every table, and NOISE then raises NONFINITE. -/
def Obligations.NonfinitePointGivesNaN : Prop :=
  (∀ (tb : Tables) (x y : F64),
    isFinite x = false ∨ isFinite y = false ∨ isFinite (fadd x y) = false ∨
      isFinite (fadd x (fmul (fadd x y) cF2)) = false ∨ isFinite (fadd y (fmul (fadd x y) cF2)) = false →
    noise2 tb x y = canonNaN) ∧
  ∀ s : State,
    isFinite s.x = false ∨ isFinite s.y = false ∨ isFinite (fadd s.x s.y) = false ∨
      isFinite (fadd s.x (fmul (fadd s.x s.y) cF2)) = false ∨ isFinite (fadd s.y (fmul (fadd s.x s.y) cF2)) = false →
    ∃ t, exec .noise s = .next t ∧ t.result = canonNaN ∧ t.status.nonfinite = true

/-- The sample at `(k, −k)` is +0.0 for every finite integral `k`, under every table (R169). -/
def Obligations.ZeroAtAntidiagonalIntegers : Prop :=
  ∀ (tb : Tables) (k : F64) (n : ℤ), isFinite k = true → toRat k = n → noise2 tb k (fneg k) = cZERO

/-- A sample that is not NaN is finite and below 26.25 in magnitude, whatever the tables hold, so NOISE never leaves an
infinity in RESULT (R170). -/
def Obligations.SampleIsBounded : Prop :=
  (∀ (tb : Tables) (x y : F64), isNaN (noise2 tb x y) = false →
    isFinite (noise2 tb x y) = true ∧ |toRat (noise2 tb x y)| < 105 / 4) ∧
  ∀ (i : Instr) (s t : State), i.runs .noise → exec i s = .next t → ∀ neg : Bool, t.result ≠ infOf neg

/-- The kernel reads PERM at 0 to 256 and PM12 at 0 to 511 only: tables that agree there give the same sample (R90). -/
def Obligations.KernelReadsTableIndicesOnly : Prop :=
  ∀ (tb tc : Tables), (∀ n ≤ 256, readPerm tb n = readPerm tc n) → (∀ n < 512, readPm12 tb n = readPm12 tc n) →
    ∀ x y : F64, noise2 tb x y = noise2 tc x y

/-- R159: under the table invariants, wrapping first and adding after reads what adding first and wrapping after reads. -/
def Obligations.WrapFirstEqualsAddFirst : Prop :=
  ∀ tb : Tables, TablesInv tb →
    (∀ (ii jj : BitVec 8) (di dj : Nat), di ≤ 1 → dj ≤ 1 →
      hashCorner tb ii jj di dj =
        readPm12 tb ((ii.toNat + di) % 256 + (readPerm tb ((jj.toNat + dj) % 256)).toNat)) ∧
    readPerm tb 256 = readPerm tb 0 ∧ ∀ v ≤ 255, readPm12 tb (256 + v) = readPm12 tb v

/-- Under the table invariants every gradient index of the kernel is 0 to 11 (sentences of R48, R158). -/
def Obligations.GradientIndexIsBelowTwelve : Prop :=
  ∀ tb : Tables, TablesInv tb → ∀ (ii jj : BitVec 8) (di dj : Nat), di ≤ 1 → dj ≤ 1 →
    (hashCorner tb ii jj di dj).toNat < 12

/-! FBM -/

/-- R181, R182: FBM runs exactly `x[OCTAVES]` octaves in order over working copies of AMP and FREQ, from a total of +0.0;
RESULT takes the total; the flags are raised as for NOISE, and nothing else changes. -/
def Obligations.FbmSumsItsOctaves : Prop :=
  ∀ s : State, ∃ total amp freq : Nat → F64,
    total 0 = cZERO ∧ amp 0 = s.amp ∧ freq 0 = s.freq ∧
    (∀ o < s.octaves.toNat,
      let n := noise2 s.tables (fmul s.x (freq o)) (fmul s.y (freq o))
      total (o + 1) = fadd (total o) (fmul n (amp o)) ∧
        amp (o + 1) = fmul (amp o) s.pers ∧ freq (o + 1) = fmul (freq o) s.lac) ∧
    exec .fbm s = .next { s with
      result := total s.octaves.toNat
      status := { s.status with
        unseeded := s.status.unseeded || !s.status.seeded
        nonfinite := s.status.nonfinite || isNonfinite (total s.octaves.toNat) } }

/-- R183. -/
def Obligations.ZeroOctavesGiveZero : Prop :=
  ∀ s : State, s.octaves = 0 →
    exec .fbm s = .next { s with
      result := 0, status := { s.status with unseeded := s.status.unseeded || !s.status.seeded } }

/-- R184: the one octave added to +0.0: the product bit for bit, except that −0.0 becomes +0.0; PERS and LAC have no
effect. -/
def Obligations.OneOctaveIsTheScaledSample : Prop :=
  ∀ s : State, s.octaves = 1 →
    let product := fmul (noise2 s.tables (fmul s.x s.freq) (fmul s.y s.freq)) s.amp
    (∃ t, exec .fbm s = .next t ∧ t.result = fadd cZERO product ∧
      (product ≠ zeroOf true → t.result = product) ∧ (product = zeroOf true → t.result = zeroOf false)) ∧
    ∀ (pers lac : F64) (t u : State), exec .fbm s = .next t →
      exec .fbm { s with pers := pers, lac := lac } = .next u → u.result = t.result

/-- R188: over the constant kernel 1.0 the scaled samples are 1.0, 0.5, 0.25, 0.125 and the totals 1.0, 1.5, 1.75,
1.875. -/
def Obligations.AmplitudeBudget : Prop :=
  ∀ x y : F64,
    let start : Octave := { total := cZERO, amp := cONE, freq := cONE }
    let after (n : Nat) : Octave := fbmLoop (fun _ _ => cONE) x y cHALF 0x4000000000000000 n start
    (List.range 4).map (fun n => fmul cONE (after n).amp) =
      [0x3FF0000000000000, 0x3FE0000000000000, 0x3FD0000000000000, 0x3FC0000000000000] ∧
    (List.range 5).map (fun n => (after n).total) =
      [0x0, 0x3FF0000000000000, 0x3FF8000000000000, 0x3FFC000000000000, 0x3FFE000000000000] ∧
    fbmTotal (fun _ _ => cONE) x y 4 cONE cONE cHALF 0x4000000000000000 = 0x3FFE000000000000

/-- R79: from any two states with the same coordinates and tables NOISE leaves the same RESULT, and FBM does from any two
states with all seven operands and the tables the same; and no instruction changes an operand or a table entry, NOISE and
FBM among them, but one that runs SEED and a write to an operand register. So whatever stands between two queries, if it
is no SEED and no such write, they give the same RESULT. -/
def Obligations.QueriesAreRepeatable : Prop :=
  (∀ (i : Instr) (s u t v : State), i.runs .noise → u.x = s.x → u.y = s.y → u.tables = s.tables →
    exec i s = .next t → exec i u = .next v → v.result = t.result) ∧
  (∀ (i : Instr) (s u t v : State), i.runs .fbm → u.x = s.x → u.y = s.y → u.octaves = s.octaves → u.amp = s.amp →
    u.freq = s.freq → u.pers = s.pers → u.lac = s.lac → u.tables = s.tables →
    exec i s = .next t → exec i u = .next v → v.result = t.result) ∧
  ∀ (j : Instr) (s u : State), ¬ j.runs .seed →
    (∀ r ∈ [Reg.x, .y, .octaves, .amp, .freq, .pers, .lac], ∀ d, j ≠ .wr r d) → exec j s = .next u →
    u.x = s.x ∧ u.y = s.y ∧ u.octaves = s.octaves ∧ u.amp = s.amp ∧ u.freq = s.freq ∧ u.pers = s.pers ∧
      u.lac = s.lac ∧ u.tables = s.tables

/-! NOP and the two transactions -/

/-- R190. -/
def Obligations.NopChangesNothing : Prop :=
  ∀ s : State, exec .nop s = .next s ∧
    ∀ d : Data, d.setWidth 32 = 0#32 → exec (.wr .cmd d) s = .next s

/-- R191: what a write to each index does; every write completes. -/
def Obligations.WriteEffects : Prop :=
  ∀ (s : State) (d : Data),
    (∀ c : Command, d.setWidth 32 = encodeCommand c → exec (.wr .cmd d) s = exec c.toInstr s) ∧
    ((∀ c : Command, d.setWidth 32 ≠ encodeCommand c) →
      exec (.wr .cmd d) s = .next { s with status := { s.status with illegal := true } }) ∧
    (∃ t, exec (.wr .cmd d) s = .next t) ∧
    exec (.wr .status d) s = .next { s with status := { s.status with
      illegal := s.status.illegal && !d.getLsbD 1
      nonfinite := s.status.nonfinite && !d.getLsbD 2
      badaccess := s.status.badaccess && !d.getLsbD 3
      unseeded := s.status.unseeded && !d.getLsbD 4 } } ∧
    exec (.wr .seed d) s = .next { s with seed := d.extractLsb' 0 32 } ∧
    exec (.wr .x d) s = .next { s with x := d } ∧
    exec (.wr .y d) s = .next { s with y := d } ∧
    exec (.wr .octaves d) s = .next { s with octaves := d.extractLsb' 0 32 } ∧
    exec (.wr .amp d) s = .next { s with amp := d } ∧
    exec (.wr .freq d) s = .next { s with freq := d } ∧
    exec (.wr .pers d) s = .next { s with pers := d } ∧
    exec (.wr .lac d) s = .next { s with lac := d } ∧
    exec (.wr .tblAddr d) s = .next { s with tblAddr := d.extractLsb' 0 9 } ∧
    (∀ r ∈ [Reg.result, .rngState, .rngRaw, .tblData, .id],
      exec (.wr r d) s = .next { s with status := { s.status with badaccess := true } }) ∧
    (∀ idx : BitVec 5, exec (.wr (.reserved idx) d) s = .next { s with status := { s.status with badaccess := true } }) ∧
    exec (.wr .octaves 0xFFFFFFFF00000004) s = .next { s with octaves := 4 }

/-- R192: the value a read of each index returns, and that no read changes anything but a reserved index's flag. The
value is recorded in `readData`, the model's own field (entry 2). -/
def Obligations.ReadValues : Prop :=
  (∀ s : State,
    exec (.rd .cmd) s = .next { s with readData := some 0 } ∧
    exec (.rd .status) s = .next { s with readData := some (s.status.word.zeroExtend 64) } ∧
    exec (.rd .seed) s = .next { s with readData := some (s.seed.zeroExtend 64) } ∧
    exec (.rd .x) s = .next { s with readData := some s.x } ∧
    exec (.rd .y) s = .next { s with readData := some s.y } ∧
    exec (.rd .octaves) s = .next { s with readData := some (s.octaves.zeroExtend 64) } ∧
    exec (.rd .amp) s = .next { s with readData := some s.amp } ∧
    exec (.rd .freq) s = .next { s with readData := some s.freq } ∧
    exec (.rd .pers) s = .next { s with readData := some s.pers } ∧
    exec (.rd .lac) s = .next { s with readData := some s.lac } ∧
    exec (.rd .result) s = .next { s with readData := some s.result } ∧
    exec (.rd .rngState) s = .next { s with readData := some (s.rngState.zeroExtend 64) } ∧
    exec (.rd .rngRaw) s = .next { s with readData := some (s.rngRaw.zeroExtend 64) } ∧
    exec (.rd .tblAddr) s = .next { s with readData := some (s.tblAddr.zeroExtend 64) } ∧
    exec (.rd .tblData) s = .next { s with readData := some (BitVec.zeroExtend 64
      (readPm12 s.tables s.tblAddr.toNat ++ readPerm s.tables s.tblAddr.toNat)) } ∧
    exec (.rd .id) s = .next { s with readData := some 0x00000000534E4331 } ∧
    ∀ idx : BitVec 5, exec (.rd (.reserved idx)) s =
      .next { s with readData := some 0, status := { s.status with badaccess := true } }) ∧
  exec (.rd .id) State.reset = .next { State.reset with readData := some 0x00000000534E4331 } ∧
  exec (.rd .status) State.reset = .next { State.reset with readData := some 0 }

/-- The bits of STATUS as a host reads it, and the bits that a write to it clears (R34). -/
def Obligations.StatusBits : Prop :=
  (∀ s : State,
    (readReg .status s).getLsbD 0 = s.status.seeded ∧ (readReg .status s).getLsbD 1 = s.status.illegal ∧
    (readReg .status s).getLsbD 2 = s.status.nonfinite ∧ (readReg .status s).getLsbD 3 = s.status.badaccess ∧
    (readReg .status s).getLsbD 4 = s.status.unseeded ∧ ∀ k, 5 ≤ k → (readReg .status s).getLsbD k = false) ∧
  ∀ (s t : State) (d : Data), exec (.wr .status d) s = .next t →
    t = { s with status := t.status } ∧
    ∀ k, (readReg .status t).getLsbD k =
      ((readReg .status s).getLsbD k && !(decide (1 ≤ k ∧ k ≤ 4) && d.getLsbD k))

/-- R193: `clrerr` clears the four flags and leaves SEEDED; writing 0 changes nothing; the example; after any write to
STATUS a flag is set again by every one of its causes: ILLEGAL by any reserved command word, BADACCESS by a write to a
read-only register or a reserved index and by a read of a reserved index, UNSEEDED by NOISE or FBM without a SEED,
NONFINITE by NOISE or FBM with such a result. -/
def Obligations.ClearingFlags : Prop :=
  (∀ s : State,
    exec (.wr .status 0x1E) s = .next { s with status :=
      { seeded := s.status.seeded, illegal := false, nonfinite := false, badaccess := false, unseeded := false } } ∧
    exec (.wr .status 0) s = .next s ∧
    (s.status.word = 0x15 → ∃ t, exec (.wr .status 0x04) s = .next t ∧ t.status.word = 0x11)) ∧
  ∀ (s t u : State) (d : Data), exec (.wr .status d) s = .next t →
    (∀ w : Data, (∀ c : Command, w.setWidth 32 ≠ encodeCommand c) → exec (.wr .cmd w) t = .next u →
      u.status.illegal = true) ∧
    (∀ (r : Reg) (w : Data), r.notWritable = true → exec (.wr r w) t = .next u → u.status.badaccess = true) ∧
    (∀ idx : BitVec 5, exec (.rd (.reserved idx)) t = .next u → u.status.badaccess = true) ∧
    (∀ i : Instr, i.runs .noise ∨ i.runs .fbm → exec i t = .next u →
      (t.status.seeded = false → u.status.unseeded = true) ∧
        (isNonfinite u.result = true → u.status.nonfinite = true))

/-- R195, R205: the three causes of BADACCESS, that nothing else changes, and that a read of CMD does not raise it. -/
def Obligations.BadAccess : Prop :=
  ∀ (s : State) (d : Data),
    (∀ r : Reg, r.notWritable = true →
      exec (.wr r d) s = .next { s with status := { s.status with badaccess := true } }) ∧
    (∀ r : Reg, r.notWritable = true ↔
      r = .result ∨ r = .rngState ∨ r = .rngRaw ∨ r = .tblData ∨ r = .id ∨ ∃ idx, r = .reserved idx) ∧
    (∀ idx : BitVec 5, exec (.rd (.reserved idx)) s =
      .next { s with readData := some 0, status := { s.status with badaccess := true } }) ∧
    exec (.rd .cmd) s = .next { s with readData := some 0 } ∧
    exec (.wr .result 0) s = .next { s with status := { s.status with badaccess := true } } ∧
    exec (.rd (.reserved 0x1F)) s =
      .next { s with readData := some 0, status := { s.status with badaccess := true } }

/-- R203: raising a flag sets its bit of STATUS and nothing else; after any instruction a flag is 1 exactly when one of
its causes occurred, or it was 1 and was not cleared by a write to STATUS. -/
def Obligations.FlagsHaveTheListedCauses : Prop :=
  (∀ (f : Flag) (s : State), (raise f s).status.word = s.status.word ||| 1#32 <<< f.code ∧
    raise f s = { s with status := (raise f s).status }) ∧
  [Flag.illegal, .nonfinite, .badaccess, .unseeded].map Flag.code = [1, 2, 3, 4] ∧
  ∀ (i : Instr) (s t : State), exec i s = .next t →
    (t.status.illegal = true ↔
      (∃ d, i = .wr .cmd d ∧ ∀ c : Command, d.setWidth 32 ≠ encodeCommand c) ∨
        (s.status.illegal = true ∧ ∀ d, i = .wr .status d → d.getLsbD 1 = false)) ∧
    (t.status.nonfinite = true ↔
      ((i.runs .noise ∨ i.runs .fbm) ∧ isNonfinite t.result = true) ∨
        (s.status.nonfinite = true ∧ ∀ d, i = .wr .status d → d.getLsbD 2 = false)) ∧
    (t.status.badaccess = true ↔
      (∃ r d, i = .wr r d ∧ r.notWritable = true) ∨ (∃ idx, i = .rd (.reserved idx)) ∨
        (s.status.badaccess = true ∧ ∀ d, i = .wr .status d → d.getLsbD 3 = false)) ∧
    (t.status.unseeded = true ↔
      ((i.runs .noise ∨ i.runs .fbm) ∧ s.status.seeded = false) ∨
        (s.status.unseeded = true ∧ ∀ d, i = .wr .status d → d.getLsbD 4 = false))

/-- No flag changes what an instruction does to anything but STATUS itself: two states that differ in STATUS alone are
left differing in STATUS alone, by every instruction but the read of STATUS (R46, R202). -/
def Obligations.FlagsDoNotAffectResults : Prop :=
  ∀ (i : Instr) (s t u : State) (st : Status), i ≠ .rd .status →
    exec i s = .next t → exec i { s with status := st } = .next u → u = { t with status := u.status }

/-- What a write to a register of storage puts there is what a read of it returns, zero-extended from the register's width;
no other register reads differently, but for the table window after a write to TBL_ADDR (R36, R71). -/
def Obligations.WriteThenRead : Prop :=
  ∀ (s t : State) (d : Data) (r : Reg), exec (.wr r d) s = .next t →
    (r ∈ [Reg.x, .y, .amp, .freq, .pers, .lac] → readReg r t = d) ∧
    (r ∈ [Reg.seed, .octaves] → (readReg r t).toNat = d.toNat % 2 ^ 32) ∧
    (r = .tblAddr → (readReg r t).toNat = d.toNat % 2 ^ 9) ∧
    (r ∈ [Reg.x, .y, .amp, .freq, .pers, .lac, .seed, .octaves, .tblAddr] →
      ∀ q : Reg, q ≠ r → (r = .tblAddr → q ≠ .tblData) → readReg q t = readReg q s)

/-- The table window: after a write of `N` to TBL_ADDR a read of TBL_DATA returns the entry pair at the low 9 bits of
`N`, PERM in bits 7:0 and PM12 in bits 11:8 (R43, R194). -/
def Obligations.TableWindow : Prop :=
  ∀ (s t u : State) (N : Data), exec (.wr .tblAddr N) s = .next t → exec (.rd .tblData) t = .next u →
    ∃ v : Data, u.readData = some v ∧
      v.toNat = 256 * (readPm12 s.tables (N.toNat % 512)).toNat + (readPerm s.tables (N.toNat % 512)).toNat ∧
      u.tables = s.tables

end Statements
end

