-- ==== Sys2Proof/Laws/Decode.lean ====
section
/-! SUPPORT. The decoder's parts and the encoder's, each against the other. -/

namespace Sys2Proof

/-- The register of an index has that index. -/
@[simp] theorem idx_ofIdx (k : BitVec 5) : (Reg.ofIdx k).idx = k := by
  revert k; decide

/-- The register of an index is well formed. -/
theorem ofIdx_wellFormed (k : BitVec 5) : (Reg.ofIdx k).wellFormed = true := by
  revert k; decide

/-- The index of a well-formed register names it. -/
theorem ofIdx_idx {r : Reg} (h : r.wellFormed = true) : Reg.ofIdx r.idx = r := by
  cases r with
  | reserved k => revert h; revert k; decide
  | _ => rfl

/-- A transaction word as a number: `we`, index and data in their places (R100). -/
theorem toNat_xactWord (b : BitVec 1) (k : BitVec 5) (d : Data) :
    BitVec.toNat (w := 70) (b ++ k ++ d) = b.toNat * 2 ^ 69 + k.toNat * 2 ^ 64 + d.toNat := by
  show BitVec.toNat (w := 1 + 5 + 64) (b ++ k ++ d) = _
  rw [BitVec.toNat_append, BitVec.toNat_append, ← Nat.shiftLeft_add_eq_or_of_lt k.isLt,
    ← Nat.shiftLeft_add_eq_or_of_lt d.isLt, Nat.shiftLeft_eq, Nat.shiftLeft_eq]
  ring

/-- A WR word as a number. -/
theorem toNat_wrWord (r : Reg) (d : Data) :
    (wrWord r d).toNat = 2 ^ 69 + r.idx.toNat * 2 ^ 64 + d.toNat := by
  rw [wrWord, toNat_xactWord]
  simp

/-- A RD word as a number. -/
theorem toNat_rdWord (r : Reg) : (rdWord r).toNat = r.idx.toNat * 2 ^ 64 := by
  rw [rdWord, toNat_xactWord]
  simp

/-- The fields the decoder reads, as parts of the number. -/
theorem xact_fields (w : XactWord) :
    w.getLsbD 69 = decide (2 ^ 69 ≤ w.toNat) ∧ (w.extractLsb' 64 5).toNat = w.toNat / 2 ^ 64 % 2 ^ 5 ∧
      (w.extractLsb' 0 64).toNat = w.toNat % 2 ^ 64 := by
  have hw : w.toNat < 2 ^ 70 := w.isLt
  refine ⟨?_, ?_, ?_⟩
  · rw [BitVec.getLsbD, Nat.testBit_eq_decide_div_mod_eq]
    apply decide_eq_decide.2
    omega
  · rw [BitVec.extractLsb'_toNat, Nat.shiftRight_eq_div_pow]
  · rw [BitVec.extractLsb'_toNat, Nat.shiftRight_eq_div_pow, pow_zero, Nat.div_one]

/-- The decoder reads a WR word's own register and data. -/
theorem decodeXact_wrWord {r : Reg} (h : r.wellFormed = true) (d : Data) : decodeXact (wrWord r d) = .wr r d := by
  obtain ⟨h1, h2, h3⟩ := xact_fields (wrWord r d)
  have hk := r.idx.isLt
  have hd := d.isLt
  rw [toNat_wrWord] at h1 h2 h3
  have e1 : (wrWord r d).getLsbD 69 = true := by
    rw [h1]
    exact decide_eq_true (by omega)
  have e2 : (wrWord r d).extractLsb' 64 5 = r.idx := by
    apply BitVec.eq_of_toNat_eq
    omega
  have e3 : (wrWord r d).extractLsb' 0 64 = d := by
    apply BitVec.eq_of_toNat_eq
    omega
  simp only [decodeXact, e1, e2, e3, if_true, ofIdx_idx h]

/-- The decoder reads a RD word's own register. -/
theorem decodeXact_rdWord {r : Reg} (h : r.wellFormed = true) : decodeXact (rdWord r) = .rd r := by
  obtain ⟨h1, h2, -⟩ := xact_fields (rdWord r)
  have hk := r.idx.isLt
  rw [toNat_rdWord] at h1 h2
  have e1 : (rdWord r).getLsbD 69 = false := by
    rw [h1]
    exact decide_eq_false (by omega)
  have e2 : (rdWord r).extractLsb' 64 5 = r.idx := by
    apply BitVec.eq_of_toNat_eq
    omega
  simp only [decodeXact, e1, e2, ofIdx_idx h, Bool.false_eq_true, if_false]

/-- What the command decoder answers, by the word's value (R104). -/
theorem decodeCommand_cases (w : CmdWord) :
    (w = 0 ∧ decodeCommand w = .ok .nop) ∨ (w = 1 ∧ decodeCommand w = .ok .seed) ∨
      (w = 2 ∧ decodeCommand w = .ok .noise) ∨ (w = 3 ∧ decodeCommand w = .ok .fbm) ∨
      (3 < w.toNat ∧ ∃ e, decodeCommand w = .error e) := by
  have hi : (w.extractLsb' 8 24).toNat = w.toNat / 2 ^ 8 % 2 ^ 24 := by
    rw [BitVec.extractLsb'_toNat, Nat.shiftRight_eq_div_pow]
  have lo : (w.extractLsb' 0 8).toNat = w.toNat % 2 ^ 8 := by
    rw [BitVec.extractLsb'_toNat, Nat.shiftRight_eq_div_pow, pow_zero, Nat.div_one]
  have hw := w.isLt
  by_cases small : w.toNat < 4
  · obtain rfl | rfl | rfl | rfl : w = 0 ∨ w = 1 ∨ w = 2 ∨ w = 3 := by
      have h0 : (0 : CmdWord).toNat = 0 := rfl
      have h1 : (1 : CmdWord).toNat = 1 := rfl
      have h2 : (2 : CmdWord).toNat = 2 := rfl
      have h3 : (3 : CmdWord).toNat = 3 := rfl
      simp only [← BitVec.toNat_inj]
      omega
    · exact .inl ⟨rfl, rfl⟩
    · exact .inr (.inl ⟨rfl, rfl⟩)
    · exact .inr (.inr (.inl ⟨rfl, rfl⟩))
    · exact .inr (.inr (.inr (.inl ⟨rfl, rfl⟩)))
  · refine .inr (.inr (.inr (.inr ⟨by omega, ?_⟩)))
    rw [decodeCommand]
    split
    · exact ⟨_, rfl⟩
    · rename_i hz
      have hz' : (w.extractLsb' 8 24).toNat = 0 := by
        rw [not_not.1 hz]
        rfl
      split <;> first | omega | exact ⟨_, rfl⟩

/-- The command words are the four that decode. -/
@[simp] theorem decodeCommand_encodeCommand (c : Command) : decodeCommand (encodeCommand c) = .ok c := by
  cases c <;> rfl

end Sys2Proof
end

