-- ==== Sys2Proof/Laws/Float.lean ====
section
/-! SUPPORT. The laws of binary64 patterns: the fields of a pattern, the patterns of a finite value, and what the one
rounding answers (R14, R15). -/

namespace Sys2Proof.Machine

/-! The fields of a pattern -/

/-- A pattern is its sign bit and its 63-bit magnitude. -/
theorem toNat_withSign (neg : Bool) {mag : Nat} (h : mag < 2 ^ 63) :
    (withSign neg mag).toNat = (if neg then 2 ^ 63 else 0) + mag := by
  rw [withSign, BitVec.toNat_ofNat]
  cases neg <;> simp <;> omega

theorem unpack_eq (a : F64) :
    unpack a =
      if a.toNat / 2 ^ 52 % 2 ^ 11 = 0x7FF then
        (if a.toNat % 2 ^ 52 = 0 then .inf (decide (2 ^ 63 ≤ a.toNat)) else .nan)
      else if a.toNat / 2 ^ 52 % 2 ^ 11 = 0 then .fin (decide (2 ^ 63 ≤ a.toNat)) (a.toNat % 2 ^ 52) 0
      else .fin (decide (2 ^ 63 ≤ a.toNat)) (2 ^ 52 + a.toNat % 2 ^ 52) (a.toNat / 2 ^ 52 % 2 ^ 11 - 1) := by
  have ha : a.toNat < 2 ^ 64 := a.isLt
  have h1 : a.getLsbD 63 = decide (2 ^ 63 ≤ a.toNat) := by
    rw [BitVec.getLsbD, Nat.testBit_eq_decide_div_mod_eq]
    apply decide_eq_decide.2
    omega
  have h2 : (a.extractLsb' 52 11).toNat = a.toNat / 2 ^ 52 % 2 ^ 11 := by
    rw [BitVec.extractLsb'_toNat, Nat.shiftRight_eq_div_pow]
  have h3 : (a.extractLsb' 0 52).toNat = a.toNat % 2 ^ 52 := by
    rw [BitVec.extractLsb'_toNat, Nat.shiftRight_eq_div_pow, pow_zero, Nat.div_one]
  simp only [unpack, h1, h2, h3]

/-- The sign bit and the exponent and fraction fields of a pattern put together. -/
theorem unpack_withSign (neg : Bool) {mag : Nat} (h : mag < 2 ^ 63) :
    unpack (withSign neg mag) =
      if mag / 2 ^ 52 = 0x7FF then (if mag % 2 ^ 52 = 0 then .inf neg else .nan)
      else if mag / 2 ^ 52 = 0 then .fin neg (mag % 2 ^ 52) 0
      else .fin neg (2 ^ 52 + mag % 2 ^ 52) (mag / 2 ^ 52 - 1) := by
  have hn := toNat_withSign neg h
  have e1 : (withSign neg mag).toNat / 2 ^ 52 % 2 ^ 11 = mag / 2 ^ 52 := by
    rw [hn]
    cases neg
    · simp only [Bool.false_eq_true, if_false]
      omega
    · simp only [if_true]
      omega
  have e2 : (withSign neg mag).toNat % 2 ^ 52 = mag % 2 ^ 52 := by
    rw [hn]
    cases neg
    · simp only [Bool.false_eq_true, if_false]
      omega
    · simp only [if_true]
      omega
  have e3 : decide (2 ^ 63 ≤ (withSign neg mag).toNat) = neg := by
    rw [hn]
    cases neg
    · simp
      omega
    · simp
  rw [unpack_eq, e1, e2, e3]

/-- Every pattern is made of its own sign and magnitude. -/
theorem withSign_self (a : F64) : withSign (decide (2 ^ 63 ≤ a.toNat)) (a.toNat % 2 ^ 63) = a := by
  have ha : a.toNat < 2 ^ 64 := a.isLt
  apply BitVec.eq_of_toNat_eq
  rw [toNat_withSign _ (Nat.mod_lt _ (by norm_num))]
  by_cases h : 2 ^ 63 ≤ a.toNat
  · rw [decide_eq_true h, if_pos rfl]; omega
  · rw [decide_eq_false h, if_neg (by simp)]; omega

/-- A significand and an exponent that a finite pattern can have. -/
def Representable (m e : Nat) : Prop := m < 2 ^ 53 ∧ e ≤ 2045 ∧ (2 ^ 52 ≤ m ∨ e = 0)

/-- The pattern of a representable value, and that it stands for that value. -/
theorem unpack_finite (neg : Bool) {m e : Nat} (h : Representable m e) :
    unpack (withSign neg (e * 2 ^ 52 + m)) = .fin neg m e := by
  obtain ⟨h1, h2, h3⟩ := h
  rw [unpack_withSign neg (by omega)]
  rcases Nat.lt_or_ge m (2 ^ 52) with hm | hm
  · obtain rfl : e = 0 := by omega
    have d : (0 * 2 ^ 52 + m) / 2 ^ 52 = 0 := by omega
    have r : (0 * 2 ^ 52 + m) % 2 ^ 52 = m := by omega
    rw [d, r, if_neg (by norm_num), if_pos rfl]
  · have d : (e * 2 ^ 52 + m) / 2 ^ 52 = e + 1 := by omega
    have r : (e * 2 ^ 52 + m) % 2 ^ 52 = m - 2 ^ 52 := by omega
    rw [d, r, if_neg (by omega), if_neg (by omega), Nat.add_sub_cancel' hm, Nat.add_sub_cancel]

/-- A finite pattern has a representable value, and is the pattern of that value. -/
theorem finite_of_unpack {a : F64} {neg : Bool} {m e : Nat} (h : unpack a = .fin neg m e) :
    Representable m e ∧ a = withSign neg (e * 2 ^ 52 + m) := by
  have self := withSign_self a
  have hm : a.toNat % 2 ^ 63 < 2 ^ 63 := Nat.mod_lt _ (by norm_num)
  have hu := unpack_withSign (decide (2 ^ 63 ≤ a.toNat)) hm
  rw [self, h] at hu
  generalize a.toNat % 2 ^ 63 = mag at *
  generalize decide (2 ^ 63 ≤ a.toNat) = sgn at *
  split at hu
  · split at hu <;> cases hu
  · split at hu
    · injection hu with e1 e2 e3
      subst e1 e2 e3
      refine ⟨⟨by omega, by omega, by omega⟩, ?_⟩
      rw [← self]
      congr 1
      omega
    · injection hu with e1 e2 e3
      subst e1 e2 e3
      refine ⟨⟨by omega, by omega, by omega⟩, ?_⟩
      rw [← self]
      congr 1
      omega

/-- The three kinds of pattern, by the exponent field. -/
theorem isNonfinite_iff (a : F64) : isNonfinite a = true ↔ unpack a = .nan ∨ ∃ s, unpack a = .inf s := by
  have h2 : (a.extractLsb' 52 11).toNat = a.toNat / 2 ^ 52 % 2 ^ 11 := by
    rw [BitVec.extractLsb'_toNat, Nat.shiftRight_eq_div_pow]
  have h3 : (a.extractLsb' 52 11 = 0x7FF#11) ↔ a.toNat / 2 ^ 52 % 2 ^ 11 = 0x7FF := by
    rw [← BitVec.toNat_inj, h2]
    rfl
  rw [isNonfinite, decide_eq_true_iff, h3, unpack_eq]
  constructor
  · intro h
    rw [if_pos h]
    split <;> simp
  · intro h
    by_contra hc
    rw [if_neg hc] at h
    split at h <;> simp at h

/-- A finite pattern unpacks to a value. -/
theorem isFinite_iff (a : F64) : isFinite a = true ↔ ∃ s m e, unpack a = .fin s m e := by
  have h := isNonfinite_iff a
  rw [isFinite]
  cases hu : unpack a with
  | nan => simp [h.2 (.inl hu)]
  | inf s => simp [h.2 (.inr ⟨s, hu⟩)]
  | fin s m e =>
    have : isNonfinite a = false := by
      rw [Bool.eq_false_iff]
      intro hn
      rcases h.1 hn with hn | ⟨_, hn⟩ <;> simp [hu] at hn
    simp [this]

/-- The real value of a finite pattern. -/
theorem toRat_of_unpack {a : F64} {s : Bool} {m e : Nat} (h : unpack a = .fin s m e) :
    toRat a = (if s then -1 else 1) * ((m : ℚ) * 2 ^ e / 2 ^ 1074) := by
  simp only [toRat, units, h, signed]
  cases s
  · simp only [Bool.false_eq_true, if_false]
    push_cast
    ring
  · simp only [if_true]
    push_cast
    ring

@[simp] theorem unpack_zeroOf (neg : Bool) : unpack (zeroOf neg) = .fin neg 0 0 := by cases neg <;> decide
@[simp] theorem unpack_infOf (neg : Bool) : unpack (infOf neg) = .inf neg := by cases neg <;> decide
@[simp] theorem unpack_canonNaN : unpack canonNaN = .nan := by decide

/-- Only the canonical pattern of an infinity unpacks to it. -/
theorem eq_infOf {a : F64} {s : Bool} (h : unpack a = .inf s) : a = infOf s := by
  have self := withSign_self a
  have hm : a.toNat % 2 ^ 63 < 2 ^ 63 := Nat.mod_lt _ (by norm_num)
  have hu := unpack_withSign (decide (2 ^ 63 ≤ a.toNat)) hm
  rw [self, h] at hu
  generalize a.toNat % 2 ^ 63 = mag at *
  generalize decide (2 ^ 63 ≤ a.toNat) = sgn at *
  split at hu
  · split at hu
    · injection hu with e1
      subst e1
      rw [← self, infOf]
      congr 1
      omega
    · cases hu
  · split at hu <;> cases hu

/-! The rounding -/

/-- `roundShift m sh` is the integer nearest to `m / 2^sh`, ties to even. -/
theorem roundShift_spec (m sh : Nat) :
    |(roundShift m sh : ℚ) - m / 2 ^ sh| ≤ 1 / 2 ∧
      (|(roundShift m sh : ℚ) - m / 2 ^ sh| = 1 / 2 → roundShift m sh % 2 = 0) := by
  have hP : (0 : ℚ) < 2 ^ sh := by positivity
  have hdiv : m = 2 ^ sh * (m >>> sh) + m % 2 ^ sh := by
    rw [Nat.shiftRight_eq_div_pow, Nat.div_add_mod]
  have hr : m % 2 ^ sh < 2 ^ sh := Nat.mod_lt _ (by positivity)
  set q := m >>> sh with hq
  set r := m % 2 ^ sh with hrr
  have hval : (m : ℚ) / 2 ^ sh = q + r / 2 ^ sh := by
    have : (m : ℚ) = 2 ^ sh * q + r := by exact_mod_cast hdiv
    rw [this]
    field_simp
  have hr' : (r : ℚ) < 2 ^ sh := by exact_mod_cast hr
  have hr0 : (0 : ℚ) ≤ r / 2 ^ sh := by positivity
  rw [hval, roundShift, ← hq, ← hrr]
  split
  · rename_i hc
    have h2 : (2 : ℚ) ^ sh ≤ 2 * r := by
      rcases hc with h | h
      · exact_mod_cast h.le
      · exact_mod_cast h.1.ge
    have hhalf : (1 : ℚ) / 2 ≤ r / 2 ^ sh := by
      rw [div_le_div_iff₀ (by norm_num) hP]
      linarith
    have hone : (r : ℚ) / 2 ^ sh < 1 := (div_lt_one hP).2 hr'
    have habs : |((q + 1 : Nat) : ℚ) - (q + r / 2 ^ sh)| = 1 - r / 2 ^ sh := by
      rw [abs_of_nonneg] <;> push_cast <;> linarith
    rw [habs]
    refine ⟨by linarith, fun heq => ?_⟩
    have hx : (r : ℚ) / 2 ^ sh = 1 / 2 := by linarith
    rw [div_eq_div_iff hP.ne' (by norm_num)] at hx
    have hx' : 2 * r = 2 ^ sh := by
      have : (2 * r : ℚ) = 2 ^ sh := by linarith
      exact_mod_cast this
    rcases hc with h | h <;> omega
  · rename_i hc
    have h2 : (2 * r : ℚ) ≤ 2 ^ sh := by
      have : ¬ 2 ^ sh < 2 * r := fun h => hc (.inl h)
      exact_mod_cast Nat.le_of_not_lt this
    have hhalf : (r : ℚ) / 2 ^ sh ≤ 1 / 2 := by
      rw [div_le_div_iff₀ hP (by norm_num)]
      linarith
    have habs : |(q : ℚ) - (q + r / 2 ^ sh)| = r / 2 ^ sh := by
      rw [sub_add_cancel_left, abs_neg, abs_of_nonneg hr0]
    rw [habs]
    refine ⟨hhalf, fun hx => ?_⟩
    rw [div_eq_div_iff hP.ne' (by norm_num)] at hx
    have hx' : 2 * r = 2 ^ sh := by
      have : (2 * r : ℚ) = 2 ^ sh := by linarith
      exact_mod_cast this
    by_contra hodd
    exact hc (.inr ⟨hx', by omega⟩)

/-- A shift that drops only zeros is exact. -/
@[simp] theorem roundShift_mul (m k : Nat) : roundShift (m * 2 ^ k) k = m := by
  have h0 : (m * 2 ^ k) % 2 ^ k = 0 := Nat.mul_mod_left _ _
  have h1 : (m * 2 ^ k) >>> k = m := by
    rw [Nat.shiftRight_eq_div_pow, Nat.mul_div_cancel _ (by positivity)]
  have h2 : 0 < 2 ^ k := by positivity
  simp only [roundShift, h0, h1]
  rw [if_neg]
  omega

/-- What the rounding answers: an exponent `E` of the last place and a significand `sig`, the integer nearest to the
value in units of that place, ties to even; the pattern is the finite one they make, or the infinity when they exceed
the largest finite value. -/
theorem roundToF64_cases (neg : Bool) {m : Nat} (hm : 0 < m) (e : Int) :
    ∃ E sig : Nat,
      |(sig : ℚ) - m * 2 ^ (e - E)| ≤ 1 / 2 ∧ (|(sig : ℚ) - m * 2 ^ (e - E)| = 1 / 2 → sig % 2 = 0) ∧
      (m : ℚ) * 2 ^ (e - E) < 2 ^ 53 ∧ (E = 0 ∨ (2 : ℚ) ^ 52 ≤ m * 2 ^ (e - E)) ∧
      roundToF64 neg m e =
        if 0x7FF0000000000000 ≤ E * 2 ^ 52 + sig then infOf neg else withSign neg (E * 2 ^ 52 + sig) := by
  obtain ⟨E, hE⟩ : ∃ E : Nat, max 0 ((m.log2 : Int) - 52 + e) = E := ⟨_, (Int.toNat_of_nonneg (le_max_left _ _)).symm⟩
  have hlow : 2 ^ m.log2 ≤ m := Nat.log2_self_le (by omega)
  have hhigh : m < 2 ^ (m.log2 + 1) := Nat.lt_log2_self
  have hlow' : ((2 : ℚ)) ^ (m.log2 : Int) ≤ m := by
    rw [zpow_natCast]; exact_mod_cast hlow
  have hhigh' : (m : ℚ) < 2 ^ ((m.log2 : Int) + 1) := by
    have : (m : ℚ) < 2 ^ (m.log2 + 1) := by exact_mod_cast hhigh
    exact_mod_cast this
  refine ⟨E, roundShift m (E - e).toNat * 2 ^ (e - E).toNat, ?_⟩
  have hval : ∃ y : ℚ, y = m * 2 ^ (e - E) ∧
      |((roundShift m (E - e).toNat * 2 ^ (e - E).toNat : Nat) : ℚ) - y| ≤ 1 / 2 ∧
      (|((roundShift m (E - e).toNat * 2 ^ (e - E).toNat : Nat) : ℚ) - y| = 1 / 2 →
        roundShift m (E - e).toNat * 2 ^ (e - E).toNat % 2 = 0) := by
    refine ⟨_, rfl, ?_⟩
    rcases le_total e (E : Int) with h | h
    · have h1 : (e - E).toNat = 0 := by omega
      have h2 : (2 : ℚ) ^ (e - E) = (2 ^ (E - e).toNat)⁻¹ := by
        rw [← zpow_natCast, ← zpow_neg]
        congr 1
        omega
      rw [h1, h2, pow_zero, mul_one, ← div_eq_mul_inv]
      exact roundShift_spec _ _
    · have h1 : (E - e).toNat = 0 := by omega
      have h2 : (2 : ℚ) ^ (e - E) = 2 ^ (e - E).toNat := by
        rw [← zpow_natCast]
        congr 1
        omega
      have h3 : roundShift m 0 = m := by simpa using roundShift_mul m 0
      rw [h1, h2, h3]
      push_cast
      rw [sub_self, abs_zero]
      norm_num
  obtain ⟨y, rfl, hnear, heven⟩ := hval
  refine ⟨hnear, heven, ?_, ?_, ?_⟩
  · calc (m : ℚ) * 2 ^ (e - E) < 2 ^ ((m.log2 : Int) + 1) * 2 ^ (e - E) := by
          apply mul_lt_mul_of_pos_right hhigh'
          positivity
      _ = 2 ^ ((m.log2 : Int) + 1 + (e - E)) := (zpow_add₀ (by norm_num) _ _).symm
      _ ≤ 2 ^ (53 : Int) := by
          apply zpow_le_zpow_right₀ (by norm_num)
          have := le_max_right 0 ((m.log2 : Int) - 52 + e)
          omega
      _ = 2 ^ 53 := by norm_num
  · rcases Nat.eq_zero_or_pos E with h | h
    · exact .inl h
    · right
      have : (m.log2 : Int) - 52 + e = E := by
        rcases max_choice 0 ((m.log2 : Int) - 52 + e) with hc | hc <;> omega
      calc (2 : ℚ) ^ 52 = 2 ^ ((m.log2 : Int) + (e - E)) := by
            rw [show (m.log2 : Int) + (e - E) = (52 : Nat) by omega, zpow_natCast]
        _ = 2 ^ (m.log2 : Int) * 2 ^ (e - E) := zpow_add₀ (by norm_num) _ _
        _ ≤ m * 2 ^ (e - E) := by
            apply mul_le_mul_of_nonneg_right hlow'
            positivity
  · rw [roundToF64, if_neg (by omega)]
    simp only [hE, Int.toNat_natCast]

/-- Rounding a value that is representable gives its pattern: here the operand has `k` trailing zero bits too many. -/
theorem roundToF64_exact (neg : Bool) {m E : Nat} (h : Representable m E) (hm : 0 < m) (k : Nat) :
    roundToF64 neg (m * 2 ^ k) (E - k) = withSign neg (E * 2 ^ 52 + m) := by
  obtain ⟨h1, h2, h3⟩ := h
  have hlog : (m * 2 ^ k).log2 = m.log2 + k := by
    rw [Nat.log2_eq_iff (by positivity), pow_add, show m.log2 + k + 1 = m.log2 + 1 + k by omega, pow_add]
    exact ⟨Nat.mul_le_mul_right _ (Nat.log2_self_le (by omega)),
      Nat.mul_lt_mul_of_pos_right Nat.lt_log2_self (by positivity)⟩
  have hlt : m.log2 < 53 := (Nat.log2_lt (by omega)).2 h1
  have hE : max 0 (((m * 2 ^ k).log2 : Int) - 52 + ((E : Int) - k)) = E := by
    rw [hlog]
    rcases h3 with h3 | h3
    · have : 52 ≤ m.log2 := (Nat.le_log2 (by omega)).2 h3
      omega
    · rcases Nat.lt_or_ge m (2 ^ 52) with h4 | h4
      · have : m.log2 < 52 := (Nat.log2_lt (by omega)).2 h4
        omega
      · have : 52 ≤ m.log2 := (Nat.le_log2 (by omega)).2 h4
        omega
  have hpos : m * 2 ^ k ≠ 0 := by positivity
  rw [roundToF64, if_neg hpos]
  simp only [hE, Int.toNat_natCast]
  have e1 : ((E : Int) - (E - k)).toNat = k := by omega
  have e2 : (((E : Int) - k) - E).toNat = 0 := by omega
  rw [e1, e2, roundShift_mul, pow_zero, mul_one, if_neg (by omega)]

/-- Rounding the value of a finite pattern gives the pattern back, however many trailing zero bits its significand is
given. -/
theorem roundToF64_self {a : F64} {s : Bool} {m e : Nat} (h : unpack a = .fin s m e) (hm : 0 < m) (k : Nat) :
    roundToF64 s (m * 2 ^ k) ((e : Int) - k) = a := by
  obtain ⟨hr, ha⟩ := finite_of_unpack h
  rw [roundToF64_exact s hr hm k, ← ha]

end Sys2Proof.Machine
end

