-- ==== Sys2Proof/Laws/Seed.lean ====
section
/-! SUPPORT. The laws of the draw and of the shuffle: the drawn index, what a swap and the whole loop can do to the
working array, and the generator's way through the loop. -/

namespace Sys2Proof.Machine

/-- The drawn index lies between the step's index and 255 (R126). -/
theorem drawIndex_bounds {i : Nat} (hi : i ≤ 254) (t : U32) : i ≤ drawIndex i t ∧ drawIndex i t ≤ 255 := by
  have ht : t.toNat < 2 ^ 32 := t.isLt
  have hlt : t.toNat * (256 - i) / 2 ^ 32 < 256 - i :=
    Nat.div_lt_of_lt_mul (Nat.mul_lt_mul_of_pos_right ht (by omega))
  rw [drawIndex, Nat.shiftRight_eq_div_pow]
  omega

/-- A swap keeps the length. -/
@[simp] theorem length_swapEntries (p : List (BitVec 8)) (i r : Nat) : (swapEntries p i r).length = p.length := by
  simp [swapEntries]

/-- A swap inside the array permutes it (R139). -/
theorem swapEntries_perm {p : List (BitVec 8)} {i r : Nat} (hi : i < p.length) (hr : r < p.length) :
    (swapEntries p i r).Perm p := by
  have h := List.set_set_perm (as := p) hi hr
  simpa only [swapEntries, List.getD_eq_getElem _ _ hi, List.getD_eq_getElem _ _ hr] using h

/-- What a swap inside the array leaves at each place (R139). -/
theorem getD_swapEntries {p : List (BitVec 8)} {i r : Nat} (hi : i < p.length) (hr : r < p.length) (k : Nat) :
    (swapEntries p i r).getD k 0 =
      if k = r then p.getD i 0 else if k = i then p.getD r 0 else p.getD k 0 := by
  simp only [swapEntries, List.getD_eq_getElem?_getD, List.getElem?_set, List.length_set, hi, hr, if_true]
  by_cases hkr : k = r
  · simp [hkr]
  · by_cases hki : k = i
    · subst hki
      simp [hkr, Ne.symm hkr]
    · simp [hkr, hki, Ne.symm hkr, Ne.symm hki]

@[simp] theorem length_identityArray : identityArray.length = 256 := by
  rw [identityArray, List.length_map, List.length_range]; rfl

/-- The working array starts with every byte once (R137). -/
theorem nodup_identityArray : identityArray.Nodup := by
  decide +kernel

/-- The generator after `n` iterations of the loop: `n` draws. -/
theorem shuffle_prng (start : Shuffle) (n : Nat) : (shuffle start n).prng = prngNext^[n] start.prng := by
  induction n with
  | zero => rfl
  | succ k ih => rw [Function.iterate_succ_apply', ← ih]; rfl

/-- The loop keeps a working array of 256 entries a permutation of itself, at every step (R139). -/
theorem shuffle_perm {start : Shuffle} (hlen : start.p.length = 256) {n : Nat} (hn : n ≤ 255) :
    (shuffle start n).p.Perm start.p := by
  induction n with
  | zero => exact List.Perm.refl _
  | succ k ih =>
    have hk := ih (by omega)
    have hlen' : (shuffle start k).p.length = 256 := hk.length_eq.trans hlen
    have hr := drawIndex_bounds (i := k) (by omega) (prngNext (shuffle start k).prng).t
    exact (swapEntries_perm (by omega) (by omega)).trans hk

/-- The array a build leaves is a permutation of the identity array (R139, R140). -/
theorem buildPermutation_perm (seed raw : U32) : (buildPermutation seed raw).p.Perm identityArray :=
  shuffle_perm length_identityArray (n := 255) (le_refl _)

@[simp] theorem length_buildPermutation (seed raw : U32) : (buildPermutation seed raw).p.length = 256 := by
  rw [(buildPermutation_perm seed raw).length_eq, length_identityArray]

theorem nodup_buildPermutation (seed raw : U32) : (buildPermutation seed raw).p.Nodup :=
  (buildPermutation_perm seed raw).nodup_iff.2 nodup_identityArray

/-- Every byte is an entry of the array a build leaves. -/
theorem mem_buildPermutation (seed raw : U32) (v : BitVec 8) : v ∈ (buildPermutation seed raw).p := by
  rw [(buildPermutation_perm seed raw).mem_iff, identityArray, List.mem_map]
  exact ⟨v.toNat, List.mem_range.2 v.isLt, BitVec.ofNat_toNat _ _⟩

/-- The draws and swaps of the loop depend on the generator's state and the array alone, not on the last output word. -/
theorem shuffle_raw (seed r r' : U32) (p : List (BitVec 8)) (n : Nat) :
    (shuffle { prng := { a := seed, t := r }, p := p } n).p = (shuffle { prng := { a := seed, t := r' }, p := p } n).p ∧
      (shuffle { prng := { a := seed, t := r }, p := p } n).prng.a =
        (shuffle { prng := { a := seed, t := r' }, p := p } n).prng.a := by
  induction n with
  | zero => exact ⟨rfl, rfl⟩
  | succ k ih => simp only [shuffle, shuffleStep, prngNext, ih.1, ih.2, and_self]

/-- A build depends on the seed alone: RNG_RAW's old value plays no part (R137, R142). -/
theorem buildPermutation_raw (seed r r' : U32) : buildPermutation seed r = buildPermutation seed r' := by
  have h := shuffle_raw seed r r' identityArray 254
  show shuffleStep 254 _ = shuffleStep 254 _
  simp only [prngCreate, shuffleStep, prngNext, h.1, h.2]

end Sys2Proof.Machine
end

