-- ==== Sys2Proof/Laws/Tables.lean ====
section
/-! SUPPORT. The laws of the table RAM: a read after a write, the canonical form kept by every operation, equal contents
are equal data, and what the fill leaves. -/

namespace Sys2Proof.Machine

section Entries
variable {w : Nat} (dflt : Nat → BitVec w)

/-- The canonical form, as its three clauses. -/
theorem entriesWf_iff (m : List (Nat × BitVec w)) :
    entriesWf dflt m = true ↔
      m.Pairwise (fun p q => p.1 < q.1) ∧ ∀ p ∈ m, p.1 < Config.tblN ∧ p.2 ≠ dflt p.1 := by
  simp [entriesWf]

/-- An index below every listed one reads as its reset content. -/
theorem readEntry_of_lt_all {a : Nat} {m : List (Nat × BitVec w)} (h : ∀ p ∈ m, a < p.1) :
    readEntry dflt a m = dflt a := by
  induction m with
  | nil => rfl
  | cons p m ih =>
    have hp := h p (by simp)
    have : a ≠ p.1 := by omega
    simp only [readEntry, this, if_false]
    exact ih fun q hq => h q (List.mem_cons_of_mem _ hq)

/-- What a write may list: the entry written, or one that was listed before. -/
theorem mem_writeEntry {a : Nat} {v : BitVec w} {m : List (Nat × BitVec w)} {p : Nat × BitVec w}
    (h : p ∈ writeEntry dflt a v m) : (p = (a, v) ∧ v ≠ dflt a) ∨ p ∈ m := by
  induction m with
  | nil =>
    simp only [writeEntry] at h
    split at h
    · cases h
    · simp_all
  | cons q m ih =>
    obtain ⟨b, u⟩ := q
    simp only [writeEntry] at h
    split at h
    · rcases List.mem_cons.1 h with h | h
      · simp [h]
      · rcases ih h with h | h
        · exact .inl h
        · simp [h]
    · have tail : ∀ r, r ∈ (if a = b then m else (b, u) :: m) → r ∈ (b, u) :: m := by
        intro r hr
        split at hr
        · exact List.mem_cons_of_mem _ hr
        · exact hr
      split at h
      · exact .inr (tail _ h)
      · rcases List.mem_cons.1 h with h | h
        · exact .inl ⟨h, by assumption⟩
        · exact .inr (tail _ h)

/-- A read after a write, in a list in rising order. -/
theorem readEntry_writeEntry (a c : Nat) (v : BitVec w) {m : List (Nat × BitVec w)}
    (hm : m.Pairwise fun p q => p.1 < q.1) :
    readEntry dflt c (writeEntry dflt a v m) = if c = a then v else readEntry dflt c m := by
  induction m with
  | nil =>
    by_cases hv : v = dflt a <;> by_cases hc : c = a <;> simp_all [writeEntry, readEntry]
  | cons q m ih =>
    obtain ⟨b, u⟩ := q
    obtain ⟨hb, hm'⟩ := List.pairwise_cons.1 hm
    simp only [writeEntry]
    by_cases hlt : b < a
    · simp only [hlt, if_true, readEntry, ih hm']
      by_cases hc : c = b
      · have : c ≠ a := by omega
        simp [hc]
        omega
      · simp [hc]
    · simp only [hlt, if_false]
      by_cases hab : a = b
      · subst hab
        have tail : ∀ d, d = a → readEntry dflt d m = dflt d := fun d hd =>
          readEntry_of_lt_all dflt fun p hp => hd ▸ hb p hp
        by_cases hv : v = dflt a <;> by_cases hc : c = a <;> simp_all [readEntry]
      · have tail : c = a → readEntry dflt c ((b, u) :: m) = dflt c := fun hd => by
          apply readEntry_of_lt_all
          intro p hp
          rcases List.mem_cons.1 hp with rfl | hp
          · show c < b
            omega
          · have : b < p.1 := hb p hp
            omega
        by_cases hv : v = dflt a <;> by_cases hc : c = a
        · subst hc; simp [hab, hv, tail]
        · simp [hab, hv, hc]
        · subst hc; simp [hab, hv, readEntry]
        · simp [hab, hv, hc, readEntry]

/-- A write keeps the canonical form. -/
theorem entriesWf_writeEntry {a : Nat} (ha : a < Config.tblN) (v : BitVec w) {m : List (Nat × BitVec w)}
    (hm : entriesWf dflt m = true) : entriesWf dflt (writeEntry dflt a v m) = true := by
  rw [entriesWf_iff] at hm ⊢
  obtain ⟨hp, hall⟩ := hm
  refine ⟨?_, fun p h => ?_⟩
  · clear hall
    induction m with
    | nil =>
      simp only [writeEntry]
      split <;> simp
    | cons q m ih =>
      obtain ⟨b, u⟩ := q
      obtain ⟨hb, hm'⟩ := List.pairwise_cons.1 hp
      simp only [writeEntry]
      split
      · refine List.pairwise_cons.2 ⟨fun p h => ?_, ih hm'⟩
        rcases mem_writeEntry dflt h with ⟨rfl, -⟩ | h
        · assumption
        · exact hb p h
      · have key : ∀ t : List (Nat × BitVec w), t = (if a = b then m else (b, u) :: m) →
            t.Pairwise (fun p q => p.1 < q.1) ∧ ∀ p ∈ t, a < p.1 := by
          intro t ht
          split at ht
          · subst ht
            exact ⟨hm', fun p hp => by have := hb p hp; simp only at this; omega⟩
          · subst ht
            refine ⟨hp, fun p hp => ?_⟩
            rcases List.mem_cons.1 hp with rfl | hp
            · show a < b
              omega
            · have : b < p.1 := hb p hp
              omega
        obtain ⟨h1, h2⟩ := key _ rfl
        split
        · exact h1
        · exact List.pairwise_cons.2 ⟨h2, h1⟩
  · rcases mem_writeEntry dflt h with ⟨rfl, hv⟩ | h
    · exact ⟨ha, hv⟩
    · exact hall p h

/-- Equal contents are equal data: two lists in canonical form that read alike everywhere are the same list. -/
theorem entries_ext {m n : List (Nat × BitVec w)} (hm : entriesWf dflt m = true) (hn : entriesWf dflt n = true)
    (h : ∀ a < Config.tblN, readEntry dflt a m = readEntry dflt a n) : m = n := by
  rw [entriesWf_iff] at hm hn
  induction m generalizing n with
  | nil =>
    cases n with
    | nil => rfl
    | cons q n =>
      obtain ⟨hq, hv⟩ := hn.2 q (by simp)
      have := h q.1 hq
      simp only [readEntry, if_true] at this
      exact absurd this.symm hv
  | cons p m ih =>
    obtain ⟨hp, hpv⟩ := hm.2 p (by simp)
    obtain ⟨hpl, hpm⟩ := List.pairwise_cons.1 hm.1
    cases n with
    | nil =>
      have := h p.1 hp
      simp only [readEntry, if_true] at this
      exact absurd this hpv
    | cons q n =>
      obtain ⟨hq, hqv⟩ := hn.2 q (by simp)
      obtain ⟨hql, hqn⟩ := List.pairwise_cons.1 hn.1
      have read_p := h p.1 hp
      have read_q := h q.1 hq
      have hidx : p.1 = q.1 := by
        rcases Nat.lt_trichotomy p.1 q.1 with hlt | heq | hlt
        · rw [readEntry_of_lt_all dflt (m := q :: n)] at read_p
          · simp only [readEntry, if_true] at read_p
            exact absurd read_p hpv
          · intro r hr
            rcases List.mem_cons.1 hr with rfl | hr
            · exact hlt
            · have := hql r hr
              omega
        · exact heq
        · rw [readEntry_of_lt_all dflt (m := p :: m)] at read_q
          · simp only [readEntry, if_true] at read_q
            exact absurd read_q.symm hqv
          · intro r hr
            rcases List.mem_cons.1 hr with rfl | hr
            · exact hlt
            · have := hpl r hr
              omega
      have hval : p.2 = q.2 := by
        simpa only [readEntry, hidx, if_true] using read_p
      have hpq : p = q := Prod.ext hidx hval
      subst hpq
      congr 1
      refine ih ⟨hpm, fun r hr => hm.2 r (List.mem_cons_of_mem _ hr)⟩
        ⟨hqn, fun r hr => hn.2 r (List.mem_cons_of_mem _ hr)⟩ (fun a ha => ?_)
      by_cases hap : a = p.1
      · subst hap
        rw [readEntry_of_lt_all dflt hpl, readEntry_of_lt_all dflt hql]
      · have := h a ha
        simpa only [readEntry, hap, if_false] using this

end Entries

/-- The canonical form of the table RAM, table by table. -/
theorem tables_wf_iff (tb : Tables) :
    tb.wf = true ↔ entriesWf resetPerm tb.perm = true ∧ entriesWf resetPm12 tb.pm12 = true := by
  simp [Tables.wf]

/-- The rising order of the listed PERM entries. -/
theorem perm_sorted_of_wf {tb : Tables} (h : tb.wf = true) : tb.perm.Pairwise fun p q => p.1 < q.1 :=
  ((entriesWf_iff _ _).1 ((tables_wf_iff tb).1 h).1).1

/-- The rising order of the listed PM12 entries. -/
theorem pm12_sorted_of_wf {tb : Tables} (h : tb.wf = true) : tb.pm12.Pairwise fun p q => p.1 < q.1 :=
  ((entriesWf_iff _ _).1 ((tables_wf_iff tb).1 h).2).1

/-- Tables with nothing listed are in canonical form. -/
theorem tables_wf_empty : (Tables.mk [] []).wf = true := by decide

/-- Writing a PERM entry keeps the canonical form. -/
theorem tables_wf_writePerm {tb : Tables} (h : tb.wf = true) {a : Nat} (ha : a < Config.tblN) (v : BitVec 8) :
    (writePerm tb a v).wf = true := by
  rw [tables_wf_iff] at h ⊢
  exact ⟨entriesWf_writeEntry _ ha v h.1, h.2⟩

/-- Writing a PM12 entry keeps the canonical form. -/
theorem tables_wf_writePm12 {tb : Tables} (h : tb.wf = true) {a : Nat} (ha : a < Config.tblN) (v : BitVec 4) :
    (writePm12 tb a v).wf = true := by
  rw [tables_wf_iff] at h ⊢
  exact ⟨h.1, entriesWf_writeEntry _ ha v h.2⟩

/-- A PERM read after a PERM write. -/
theorem readPerm_writePerm {tb : Tables} (h : tb.wf = true) (a c : Nat) (v : BitVec 8) :
    readPerm (writePerm tb a v) c = if c = a then v else readPerm tb c :=
  readEntry_writeEntry _ a c v (perm_sorted_of_wf h)

/-- A PM12 read after a PM12 write. -/
theorem readPm12_writePm12 {tb : Tables} (h : tb.wf = true) (a c : Nat) (v : BitVec 4) :
    readPm12 (writePm12 tb a v) c = if c = a then v else readPm12 tb c :=
  readEntry_writeEntry _ a c v (pm12_sorted_of_wf h)

@[simp] theorem readPerm_writePm12 (tb : Tables) (a c : Nat) (v : BitVec 4) :
    readPerm (writePm12 tb a v) c = readPerm tb c := rfl

@[simp] theorem readPm12_writePerm (tb : Tables) (a c : Nat) (v : BitVec 8) :
    readPm12 (writePerm tb a v) c = readPm12 tb c := rfl

/-- The fill keeps the canonical form. -/
theorem tables_wf_fillTables (f : Nat → BitVec 8) {tb : Tables} (h : tb.wf = true) {n : Nat} (hn : n ≤ Config.tblN) :
    (fillTables f tb n).wf = true := by
  induction n with
  | zero => exact h
  | succ k ih =>
    exact tables_wf_writePm12 (tables_wf_writePerm (ih (by omega)) (by omega) _) (by omega) _

/-- What PERM holds after the first `n` iterations of the fill. -/
theorem readPerm_fillTables (f : Nat → BitVec 8) {tb : Tables} (h : tb.wf = true) {n : Nat} (hn : n ≤ Config.tblN)
    (c : Nat) : readPerm (fillTables f tb n) c = if c < n then f (c % 256) else readPerm tb c := by
  induction n with
  | zero => simp [fillTables]
  | succ k ih =>
    simp only [fillTables, readPerm_writePm12]
    rw [readPerm_writePerm (tables_wf_fillTables f h (by omega)), ih (by omega)]
    by_cases hc : c = k
    · simp [hc, and255]
    · by_cases hlt : c < k
      · simp [hc, hlt, Nat.lt_succ_of_lt hlt]
      · have : ¬ c < k + 1 := by omega
        simp [hc, hlt, this]

/-- What PM12 holds after the first `n` iterations of the fill. -/
theorem readPm12_fillTables (f : Nat → BitVec 8) {tb : Tables} (h : tb.wf = true) {n : Nat} (hn : n ≤ Config.tblN)
    (c : Nat) : readPm12 (fillTables f tb n) c = if c < n then mod12 (f (c % 256)) else readPm12 tb c := by
  induction n with
  | zero => simp [fillTables]
  | succ k ih =>
    simp only [fillTables]
    rw [readPm12_writePm12 (tables_wf_writePerm (tables_wf_fillTables f h (by omega)) (by omega) _), readPm12_writePerm,
      ih (by omega)]
    by_cases hc : c = k
    · simp [hc, and255]
    · by_cases hlt : c < k
      · simp [hc, hlt, Nat.lt_succ_of_lt hlt]
      · have : ¬ c < k + 1 := by omega
        simp [hc, hlt, this]

/-- Equal contents are equal data. -/
theorem tables_ext {tb tc : Tables} (hb : tb.wf = true) (hc : tc.wf = true)
    (hperm : ∀ a < Config.tblN, readPerm tb a = readPerm tc a)
    (hpm12 : ∀ a < Config.tblN, readPm12 tb a = readPm12 tc a) : tb = tc := by
  rw [tables_wf_iff] at hb hc
  have h1 := entries_ext _ hb.1 hc.1 hperm
  have h2 := entries_ext _ hb.2 hc.2 hpm12
  cases tb
  cases tc
  simp_all

end Sys2Proof.Machine
end

