-- ==== Sys2Proof/Laws/Invariant.lean ====
section
/-! SUPPORT. Tables filled from an array of the 256 bytes, each once, satisfy the table invariants of R49. -/

namespace Sys2Proof.Machine

/-- The PM12 entry of a byte is the byte modulo 12 (R12). -/
theorem toNat_mod12 (v : BitVec 8) : (mod12 v).toNat = v.toNat % 12 := by
  rw [mod12, BitVec.toNat_ofNat]
  omega

/-- An array of 256 different bytes holds every byte. -/
theorem mem_of_nodup {p : List (BitVec 8)} (hlen : p.length = 256) (hnd : p.Nodup) (v : BitVec 8) : v ∈ p := by
  have hmap : (p.map BitVec.toNat).Nodup := hnd.map fun a b h => BitVec.eq_of_toNat_eq h
  have hsub : (p.map BitVec.toNat).toFinset ⊆ Finset.range 256 := fun n hn => by
    obtain ⟨a, -, rfl⟩ := List.mem_map.1 (List.mem_toFinset.1 hn)
    exact Finset.mem_range.2 a.isLt
  have heq := Finset.eq_of_subset_of_card_le hsub (by rw [List.toFinset_card_of_nodup hmap]; simp [hlen])
  have hv : v.toNat ∈ (p.map BitVec.toNat).toFinset := heq ▸ Finset.mem_range.2 v.isLt
  obtain ⟨a, ha, hav⟩ := List.mem_map.1 (List.mem_toFinset.1 hv)
  exact BitVec.eq_of_toNat_eq hav ▸ ha

/-- Tables in canonical form whose entries are those of such an array satisfy the invariants. -/
theorem tablesInv_of_array {p : List (BitVec 8)} (hlen : p.length = 256) (hnd : p.Nodup) {tb : Tables}
    (hwf : tb.wf = true)
    (h : ∀ n < 512, readPerm tb n = p.getD (n % 256) 0 ∧ readPm12 tb n = mod12 (p.getD (n % 256) 0)) :
    TablesInv tb where
  wf := hwf
  perm := fun v => by
    obtain ⟨n, hn, hv⟩ := List.getElem_of_mem (mem_of_nodup hlen hnd v)
    have read : ∀ m (hm : m < 256), readPerm tb m = p[m]'(hlen ▸ hm) := fun m hm => by
      rw [(h m (by omega)).1, Nat.mod_eq_of_lt hm, List.getD_eq_getElem _ _ (hlen ▸ hm)]
    refine ⟨n, ⟨by omega, by rw [read n (by omega), hv]⟩, fun m ⟨hm, hmv⟩ => ?_⟩
    rw [read m hm, ← hv] at hmv
    exact (List.Nodup.getElem_inj_iff hnd).1 hmv
  dupPerm := fun n hn => by rw [(h n (by omega)).1, (h (n + 256) (by omega)).1, Nat.add_mod_right]
  pm12 := fun n hn => by rw [(h n hn).1, (h n hn).2, toNat_mod12]
  dupPm12 := fun n hn => by rw [(h n (by omega)).2, (h (n + 256) (by omega)).2, Nat.add_mod_right]

/-- What filling both tables from such an array leaves, whatever they held. -/
theorem tablesInv_fillTables {p : List (BitVec 8)} (hlen : p.length = 256) (hnd : p.Nodup) {tb : Tables}
    (hwf : tb.wf = true) : TablesInv (fillTables (fun k => p.getD k 0) tb Config.tblN) :=
  tablesInv_of_array hlen hnd (tables_wf_fillTables _ hwf (le_refl _)) fun n hn => by
    have hn' : n < Config.tblN := hn
    rw [readPerm_fillTables _ hwf (le_refl _), readPm12_fillTables _ hwf (le_refl _), if_pos hn', if_pos hn']
    exact ⟨rfl, rfl⟩

end Sys2Proof.Machine
end

