-- ==== Sys2Proof/Laws/PerInstr.lean ====
section
/-! SUPPORT. Statements about every instruction as syntax, one lemma per constructor. -/

namespace Sys2Proof.Laws

/-- The encoder's word fits the width of its row, so the encoding drops no bit. -/
def EncodeFits.Statement (i : Instr) : Prop := (encode i).2 < 2 ^ (encode i).1

theorem EncodeFits.nop : EncodeFits.Statement .nop := by unfold EncodeFits.Statement; decide
theorem EncodeFits.seed : EncodeFits.Statement .seed := by unfold EncodeFits.Statement; decide
theorem EncodeFits.noise : EncodeFits.Statement .noise := by unfold EncodeFits.Statement; decide
theorem EncodeFits.fbm : EncodeFits.Statement .fbm := by unfold EncodeFits.Statement; decide
theorem EncodeFits.wr (r : Reg) (d : Data) : EncodeFits.Statement (.wr r d) :=
  lt_trans (wrWord r d).isLt (by norm_num [encode])
theorem EncodeFits.rd (r : Reg) : EncodeFits.Statement (.rd r) :=
  lt_trans (rdWord r).isLt (by norm_num [encode])

end Sys2Proof.Laws
end

