-- ==== Sys2Proof/Laws/Rounding.lean ====
section
/-! SUPPORT. The one rounding of R15 is correct: what `roundToF64` answers is the real value rounded once to binary64,
to nearest, ties to even, with overflow to the infinity. -/

namespace Sys2Proof.Machine

/-- The sign of a value as a factor. -/
def signQ (neg : Bool) : ℚ := if neg then -1 else 1

@[simp] theorem signQ_mul_self (neg : Bool) : signQ neg * signQ neg = 1 := by cases neg <;> norm_num [signQ]
@[simp] theorem abs_signQ (neg : Bool) : |signQ neg| = 1 := by cases neg <;> norm_num [signQ]

/-- The real value of a finite pattern. -/
theorem toRat_fin {a : F64} {s : Bool} {m e : Nat} (h : unpack a = .fin s m e) :
    toRat a = signQ s * ((m : ℚ) * 2 ^ e / 2 ^ 1074) := toRat_of_unpack h

/-- An integer within a half of `y` is no farther from `y` than any other integer, and as far only on a tie. -/
theorem nearest_integer {sig : Nat} {y : ℚ} (h : |(sig : ℚ) - y| ≤ 1 / 2) (n : ℤ) :
    |(sig : ℚ) - y| ≤ |(n : ℚ) - y| ∧ (|(n : ℚ) - y| = |(sig : ℚ) - y| → n = sig ∨ |(sig : ℚ) - y| = 1 / 2) := by
  by_cases hn : n = sig
  · subst hn
    exact ⟨le_refl _, fun _ => .inl rfl⟩
  · have h1 : (1 : ℚ) ≤ |(n : ℚ) - sig| := by
      have : (1 : ℤ) ≤ |n - sig| := Int.one_le_abs (sub_ne_zero.2 hn)
      exact_mod_cast this
    have h2 : |(n : ℚ) - sig| ≤ |(n : ℚ) - y| + |(sig : ℚ) - y| := by
      have := abs_sub_le (n : ℚ) y sig
      rwa [abs_sub_comm y (sig : ℚ)] at this
    exact ⟨by linarith, fun heq => .inr (by linarith)⟩

/-- A significand of up to 2^53 at the exponent `E` is a finite value, unless it exceeds the largest. -/
theorem representable_of_sig {E sig : Nat} (hsig : sig ≤ 2 ^ 53) (hE : E = 0 ∨ 2 ^ 52 ≤ sig)
    (hmag : E * 2 ^ 52 + sig < 0x7FF0000000000000) :
    ∃ m' E', Representable m' E' ∧ E' * 2 ^ 52 + m' = E * 2 ^ 52 + sig ∧ m' * 2 ^ E' = sig * 2 ^ E := by
  rcases Nat.lt_or_ge sig (2 ^ 53) with h | h
  · exact ⟨sig, E, ⟨h, by omega, by omega⟩, rfl, rfl⟩
  · obtain rfl : sig = 2 ^ 53 := by omega
    refine ⟨2 ^ 52, E + 1, ⟨by omega, by omega, .inl (le_refl _)⟩, by omega, ?_⟩
    rw [pow_succ]
    ring

/-- The last bit of a pattern is the last bit of its magnitude. -/
theorem lastBit_withSign (neg : Bool) {mag : Nat} (h : mag < 2 ^ 63) :
    (withSign neg mag).getLsbD 0 = decide (mag % 2 = 1) := by
  rw [BitVec.getLsbD, toNat_withSign neg h, Nat.testBit_zero]
  apply decide_eq_decide.2
  cases neg
  · simp
  · simp only [if_true]
    omega

theorem overflowBound_eq : overflowBound = 2 ^ 971 * (2 ^ 53 - 1 / 2) := by
  rw [overflowBound, show 1024 = 971 + 53 from rfl, pow_add, show 971 = 970 + 1 from rfl, pow_succ (2 : ℚ) 970]
  ring

theorem unitPow_2045 : (2 : ℚ) ^ 2045 / 2 ^ 1074 = 2 ^ 971 := by
  rw [div_eq_iff (by positivity), ← pow_add]

/-- The overflow test of the rounding is the comparison of the value with the overflow bound. -/
theorem overflow_iff {E sig : Nat} {y : ℚ} (hy : 0 ≤ y) (h : |(sig : ℚ) - y| ≤ 1 / 2)
    (heven : |(sig : ℚ) - y| = 1 / 2 → sig % 2 = 0) (hhigh : y < 2 ^ 53) (hlow : E = 0 ∨ (2 : ℚ) ^ 52 ≤ y) :
    y * 2 ^ E / 2 ^ 1074 < overflowBound ↔ E * 2 ^ 52 + sig < 0x7FF0000000000000 := by
  obtain ⟨hs1, hs2⟩ := abs_le.1 h
  have hsig : sig ≤ 2 ^ 53 := by
    have : (sig : ℚ) < ((2 ^ 53 + 1 : Nat) : ℚ) := by push_cast; linarith
    have : sig < 2 ^ 53 + 1 := by exact_mod_cast this
    omega
  have hsig' : E = 0 ∨ 2 ^ 52 ≤ sig := by
    rcases hlow with h0 | h0
    · exact .inl h0
    · right
      have : ((2 ^ 52 : Nat) : ℚ) < (sig : ℚ) + 1 := by push_cast; linarith
      have : 2 ^ 52 < sig + 1 := by exact_mod_cast this
      omega
  rw [overflowBound_eq]
  have hP : (0 : ℚ) < 2 ^ 971 := by positivity
  rcases Nat.lt_trichotomy E 2045 with hE | rfl | hE
  · refine ⟨fun _ => by omega, fun _ => ?_⟩
    have hpow : (2 : ℚ) ^ E / 2 ^ 1074 ≤ 2 ^ 971 / 2 := by
      rw [← unitPow_2045, div_div, mul_comm ((2 : ℚ) ^ 1074) 2, ← div_div]
      apply div_le_div_of_nonneg_right _ (by positivity)
      rw [le_div_iff₀ (by norm_num), ← pow_succ]
      exact pow_le_pow_right₀ (by norm_num) (by omega)
    calc y * 2 ^ E / 2 ^ 1074 = y * (2 ^ E / 2 ^ 1074) := by rw [mul_div_assoc]
      _ ≤ y * (2 ^ 971 / 2) := mul_le_mul_of_nonneg_left hpow hy
      _ ≤ 2 ^ 53 * (2 ^ 971 / 2) := mul_le_mul_of_nonneg_right hhigh.le (by positivity)
      _ = 2 ^ 971 * (2 ^ 53 / 2) := by ring
      _ < 2 ^ 971 * (2 ^ 53 - 1 / 2) := by
          apply mul_lt_mul_of_pos_left _ hP
          norm_num
  · rw [mul_div_assoc, unitPow_2045, mul_comm, mul_lt_mul_iff_right₀ hP]
    constructor
    · intro hlt
      by_contra hge
      obtain rfl : sig = 2 ^ 53 := by omega
      push_cast at hs2
      linarith
    · intro hlt
      have hle : sig ≤ 2 ^ 53 - 1 := by omega
      have hle' : (sig : ℚ) ≤ 2 ^ 53 - 1 := by
        have : (sig : ℚ) ≤ ((2 ^ 53 - 1 : Nat) : ℚ) := by exact_mod_cast hle
        rw [Nat.cast_sub (by norm_num)] at this
        exact_mod_cast this
      by_contra hge
      have hy' : y = 2 ^ 53 - 1 / 2 := le_antisymm (by linarith) (not_lt.1 hge)
      have hsq : (sig : ℚ) = 2 ^ 53 - 1 := by linarith
      have hodd : sig = 2 ^ 53 - 1 := by
        have : (sig : ℚ) = ((2 ^ 53 - 1 : Nat) : ℚ) := by rw [hsq, Nat.cast_sub (by norm_num)]; norm_num
        exact_mod_cast this
      have : sig % 2 = 0 := heven (by rw [hsq, hy', show (2 : ℚ) ^ 53 - 1 - (2 ^ 53 - 1 / 2) = -(1 / 2) by ring,
        abs_neg, abs_of_pos (by norm_num)])
      omega
  · have h52 : 2 ^ 52 ≤ sig := by omega
    have hy52 : (2 : ℚ) ^ 52 ≤ y := by
      rcases hlow with h0 | h0
      · omega
      · exact h0
    refine ⟨fun hlt => ?_, fun hlt => by omega⟩
    exfalso
    have hpow : (2 : ℚ) ^ 971 * 2 ≤ 2 ^ E / 2 ^ 1074 := by
      rw [← unitPow_2045, div_mul_eq_mul_div, ← pow_succ]
      exact div_le_div_of_nonneg_right (pow_le_pow_right₀ (by norm_num) (by omega)) (by positivity)
    have : (2 : ℚ) ^ 971 * (2 ^ 53 - 1 / 2) ≤ y * 2 ^ E / 2 ^ 1074 := by
      calc (2 : ℚ) ^ 971 * (2 ^ 53 - 1 / 2) ≤ 2 ^ 971 * 2 ^ 53 := by
            apply mul_le_mul_of_nonneg_left _ hP.le
            norm_num
        _ = 2 ^ 52 * (2 ^ 971 * 2) := by ring
        _ ≤ y * (2 ^ E / 2 ^ 1074) := by
            apply mul_le_mul hy52 hpow (by positivity) hy
        _ = y * 2 ^ E / 2 ^ 1074 := by rw [mul_div_assoc]
    linarith

/-- The rounding is correct (R15): it answers the real `± m × 2^e` units rounded once to binary64. -/
theorem roundToF64_isRounded (neg : Bool) {m : Nat} (hm : 0 < m) (e : Int) :
    IsRounded (signQ neg * ((m : ℚ) * 2 ^ e / 2 ^ 1074)) (roundToF64 neg m e) := by
  obtain ⟨E, sig, hnear, heven, hhigh, hlow, hres⟩ := roundToF64_cases neg hm e
  set y : ℚ := m * 2 ^ (e - E) with hy
  have hm' : (0 : ℚ) < m := by exact_mod_cast hm
  have hy0 : 0 < y := by positivity
  have hx : (m : ℚ) * 2 ^ e = y * 2 ^ E := by
    rw [hy, mul_assoc, ← zpow_natCast, ← zpow_add₀ (by norm_num)]
    congr 2
    omega
  have habs : |signQ neg * ((m : ℚ) * 2 ^ e / 2 ^ 1074)| = y * 2 ^ E / 2 ^ 1074 := by
    rw [abs_mul, abs_signQ, one_mul, hx, abs_of_pos (by positivity)]
  have hov := overflow_iff hy0.le hnear heven hhigh hlow
  have hsig : sig ≤ 2 ^ 53 := by
    have := (abs_le.1 hnear).2
    have : (sig : ℚ) < ((2 ^ 53 + 1 : Nat) : ℚ) := by push_cast; linarith
    have : sig < 2 ^ 53 + 1 := by exact_mod_cast this
    omega
  have hsig' : E = 0 ∨ 2 ^ 52 ≤ sig := by
    rcases hlow with h0 | h0
    · exact .inl h0
    · right
      have := (abs_le.1 hnear).1
      have : ((2 ^ 52 : Nat) : ℚ) < (sig : ℚ) + 1 := by push_cast; linarith
      have : 2 ^ 52 < sig + 1 := by exact_mod_cast this
      omega
  rw [hres]
  by_cases hmag : E * 2 ^ 52 + sig < 0x7FF0000000000000
  · rw [if_neg (not_le.2 hmag), IsRounded, if_pos (by rw [habs]; exact hov.2 hmag)]
    obtain ⟨m', E', hrep, hfields, hvalue⟩ := representable_of_sig hsig hsig' hmag
    have hunpack : unpack (withSign neg (E * 2 ^ 52 + sig)) = .fin neg m' E' := by
      rw [← hfields]
      exact unpack_finite neg hrep
    have hr : toRat (withSign neg (E * 2 ^ 52 + sig)) = signQ neg * ((sig : ℚ) * 2 ^ E / 2 ^ 1074) := by
      rw [toRat_fin hunpack]
      congr 2
      exact_mod_cast hvalue
    have scale : (0 : ℚ) < 2 ^ E / 2 ^ 1074 := by positivity
    have dist_r : |toRat (withSign neg (E * 2 ^ 52 + sig)) - signQ neg * ((m : ℚ) * 2 ^ e / 2 ^ 1074)| =
        |(sig : ℚ) - y| * (2 ^ E / 2 ^ 1074) := by
      rw [hr, hx, ← mul_sub, abs_mul, abs_signQ, one_mul, mul_div_assoc, mul_div_assoc, ← sub_mul, abs_mul,
        abs_of_pos scale]
    -- the distance of any other finite value, in units of the result's last place
    have dist_b : ∀ {b : F64} {s : Bool} {mb eb : Nat}, unpack b = .fin s mb eb →
        |toRat b - signQ neg * ((m : ℚ) * 2 ^ e / 2 ^ 1074)| =
          |signQ neg * signQ s * mb * 2 ^ eb / 2 ^ E - y| * (2 ^ E / 2 ^ 1074) := by
      intro b s mb eb hb
      rw [toRat_fin hb, hx]
      have : signQ s * ((mb : ℚ) * 2 ^ eb / 2 ^ 1074) - signQ neg * (y * 2 ^ E / 2 ^ 1074) =
          signQ neg * ((signQ neg * signQ s * mb * 2 ^ eb / 2 ^ E - y) * (2 ^ E / 2 ^ 1074)) := by
        have hsq := signQ_mul_self neg
        field_simp
        linear_combination (-(signQ s) * mb * 2 ^ eb) * hsq
      rw [this, abs_mul, abs_signQ, one_mul, abs_mul, abs_of_pos scale]
    -- what the distances compare as
    have key : ∀ {b : F64} {s : Bool} {mb eb : Nat}, unpack b = .fin s mb eb →
        |(sig : ℚ) - y| ≤ |signQ neg * signQ s * mb * 2 ^ eb / 2 ^ E - y| ∧
          (|signQ neg * signQ s * mb * 2 ^ eb / 2 ^ E - y| = |(sig : ℚ) - y| →
            signQ neg * signQ s * mb * 2 ^ eb / 2 ^ E = sig ∨ |(sig : ℚ) - y| = 1 / 2) := by
      intro b s mb eb hb
      obtain ⟨⟨hmb, -, -⟩, -⟩ := finite_of_unpack hb
      rcases le_or_gt E eb with hle | hgt
      · obtain ⟨n, hn⟩ : ∃ n : ℤ, signQ neg * signQ s * mb * 2 ^ eb / 2 ^ E = n := by
          obtain ⟨d, rfl⟩ := Nat.exists_eq_add_of_le hle
          have hd : signQ neg * signQ s * (mb : ℚ) * 2 ^ (E + d) / 2 ^ E = signQ neg * signQ s * mb * 2 ^ d := by
            rw [pow_add]
            field_simp
          rw [hd]
          cases neg <;> cases s <;> simp only [signQ, if_true, Bool.false_eq_true, if_false]
          · exact ⟨mb * 2 ^ d, by push_cast; ring⟩
          · exact ⟨-(mb * 2 ^ d), by push_cast; ring⟩
          · exact ⟨-(mb * 2 ^ d), by push_cast; ring⟩
          · exact ⟨mb * 2 ^ d, by push_cast; ring⟩
        rw [hn]
        obtain ⟨h1, h2⟩ := nearest_integer hnear n
        exact ⟨h1, fun h => (h2 h).imp (fun h => by rw [h]; norm_num) id⟩
      · have hy52 : (2 : ℚ) ^ 52 ≤ y := by
          rcases hlow with h0 | h0
          · omega
          · exact h0
        have hmb' : (mb : ℚ) < 2 ^ 53 := by exact_mod_cast hmb
        have hsmall : signQ neg * signQ s * mb * 2 ^ eb / 2 ^ E < 2 ^ 52 := by
          have h1 : signQ neg * signQ s ≤ 1 := by
            cases neg <;> cases s <;> norm_num [signQ]
          have h2 : (2 : ℚ) ^ eb * 2 ≤ 2 ^ E := by
            rw [← pow_succ]
            exact pow_le_pow_right₀ (by norm_num) hgt
          rw [div_lt_iff₀ (by positivity)]
          calc signQ neg * signQ s * mb * 2 ^ eb ≤ 1 * mb * 2 ^ eb := by gcongr
            _ = mb * 2 ^ eb := by ring
            _ < 2 ^ 53 * 2 ^ eb := by gcongr
            _ = 2 ^ 52 * (2 ^ eb * 2) := by ring
            _ ≤ 2 ^ 52 * 2 ^ E := by gcongr
        have h1 : |(sig : ℚ) - y| ≤ |(2 : ℚ) ^ 52 - y| := by
          have := (nearest_integer hnear (2 ^ 52)).1
          rwa [Int.cast_pow, Int.cast_ofNat] at this
        have h2 : |(2 : ℚ) ^ 52 - y| = y - 2 ^ 52 := by
          rw [abs_sub_comm, abs_of_nonneg (by linarith)]
        have h3 : |signQ neg * signQ s * mb * 2 ^ eb / 2 ^ E - y| = y - signQ neg * signQ s * mb * 2 ^ eb / 2 ^ E := by
          rw [abs_sub_comm, abs_of_nonneg (by linarith)]
        rw [h3]
        exact ⟨by linarith, fun h => absurd h (by linarith)⟩
    refine ⟨(isFinite_iff _).2 ⟨_, _, _, hunpack⟩, fun b hb => ?_, fun b hb heq => ?_⟩
    · obtain ⟨s, mb, eb, hb⟩ := (isFinite_iff b).1 hb
      rw [dist_r, dist_b hb]
      exact mul_le_mul_of_nonneg_right (key hb).1 scale.le
    · obtain ⟨s, mb, eb, hb⟩ := (isFinite_iff b).1 hb
      rw [dist_r, dist_b hb] at heq
      rcases (key hb).2 (mul_right_cancel₀ scale.ne' heq) with h | h
      · left
        rw [toRat_fin hb, hr]
        have : signQ s * (mb : ℚ) * 2 ^ eb = signQ neg * sig * 2 ^ E := by
          rw [div_eq_iff (by positivity)] at h
          have hsq := signQ_mul_self neg
          linear_combination signQ neg * h - signQ s * mb * 2 ^ eb * hsq
        linear_combination this / 2 ^ 1074
      · right
        rw [lastBit_withSign neg (by omega)]
        have := heven h
        apply decide_eq_false
        omega
  · rw [if_pos (not_lt.1 hmag), IsRounded, if_neg (by rw [habs]; exact fun h => hmag (hov.1 h))]
    congr 1
    have hpos : 0 < (m : ℚ) * 2 ^ e / 2 ^ 1074 := by positivity
    cases neg
    · simp only [signQ, Bool.false_eq_true, if_false, one_mul]
      exact (decide_eq_false (not_lt.2 hpos.le)).symm
    · simp only [signQ, if_true, neg_mul, one_mul]
      exact (decide_eq_true (neg_lt_zero.2 hpos)).symm

end Sys2Proof.Machine
end

