-- ==== Sys2Proof/Laws/Special.lean ====
section
/-! SUPPORT. The special patterns and how the rounding and the primitives meet them. -/

namespace Sys2Proof.Machine

theorem isNaN_iff (a : F64) : isNaN a = true ↔ unpack a = .nan := by
  rw [isNaN]
  split <;> simp_all

/-- The rounding never answers a NaN. -/
theorem unpack_roundToF64_ne_nan (neg : Bool) (m : Nat) (e : Int) : unpack (roundToF64 neg m e) ≠ .nan := by
  rcases Nat.eq_zero_or_pos m with rfl | hm
  · simp [roundToF64]
  · obtain ⟨E, sig, -, -, -, -, h⟩ := roundToF64_cases neg hm e
    rw [h]
    split
    · simp
    · rw [unpack_withSign neg (by omega)]
      split
      · omega
      · split <;> simp

theorem fadd_nan_left {a : F64} (h : unpack a = .nan) (b : F64) : fadd a b = canonNaN := by
  rw [fadd, h]

theorem fadd_nan_right (a : F64) {b : F64} (h : unpack b = .nan) : fadd a b = canonNaN := by
  rw [fadd, h]
  cases unpack a <;> rfl

theorem fmul_nan_left {a : F64} (h : unpack a = .nan) (b : F64) : fmul a b = canonNaN := by
  rw [fmul, h]

theorem fmul_nan_right (a : F64) {b : F64} (h : unpack b = .nan) : fmul a b = canonNaN := by
  rw [fmul, h]
  cases unpack a <;> rfl

/-- The product of two finite values. -/
theorem fmul_fin {a b : F64} {s t : Bool} {m e n f : Nat} (ha : unpack a = .fin s m e) (hb : unpack b = .fin t n f) :
    fmul a b = roundToF64 (s ^^ t) (m * n) ((e : Int) + f - 1074) := by
  rw [fmul, ha, hb]

/-- The sum of two finite values. -/
theorem fadd_fin {a b : F64} {s t : Bool} {m e n f : Nat} (ha : unpack a = .fin s m e) (hb : unpack b = .fin t n f) :
    fadd a b =
      if signed s (m * 2 ^ (e - min e f)) + signed t (n * 2 ^ (f - min e f)) = 0 then zeroOf (s && t)
      else
        roundToF64 (decide (signed s (m * 2 ^ (e - min e f)) + signed t (n * 2 ^ (f - min e f)) < 0))
          (signed s (m * 2 ^ (e - min e f)) + signed t (n * 2 ^ (f - min e f))).natAbs (min e f : Nat) := by
  rw [fadd, ha, hb]

end Sys2Proof.Machine
end

