-- ==== Sys2Proof/Laws/State.lean ====
section
/-! SUPPORT. One lemma per field of State per shared update, each true by unfolding that update, so that no later proof
unfolds a record update. -/

namespace Sys2Proof.Machine

/-! `raise` (R203) -/

@[simp] theorem raise_status (f : Flag) (s : State) : (raise f s).status = s.status.set f := rfl
@[simp] theorem raise_seed (g : Flag) (s : State) : (raise g s).seed = s.seed := rfl
@[simp] theorem raise_x (g : Flag) (s : State) : (raise g s).x = s.x := rfl
@[simp] theorem raise_y (g : Flag) (s : State) : (raise g s).y = s.y := rfl
@[simp] theorem raise_octaves (g : Flag) (s : State) : (raise g s).octaves = s.octaves := rfl
@[simp] theorem raise_amp (g : Flag) (s : State) : (raise g s).amp = s.amp := rfl
@[simp] theorem raise_freq (g : Flag) (s : State) : (raise g s).freq = s.freq := rfl
@[simp] theorem raise_pers (g : Flag) (s : State) : (raise g s).pers = s.pers := rfl
@[simp] theorem raise_lac (g : Flag) (s : State) : (raise g s).lac = s.lac := rfl
@[simp] theorem raise_result (g : Flag) (s : State) : (raise g s).result = s.result := rfl
@[simp] theorem raise_rngState (g : Flag) (s : State) : (raise g s).rngState = s.rngState := rfl
@[simp] theorem raise_rngRaw (g : Flag) (s : State) : (raise g s).rngRaw = s.rngRaw := rfl
@[simp] theorem raise_tblAddr (g : Flag) (s : State) : (raise g s).tblAddr = s.tblAddr := rfl
@[simp] theorem raise_tables (g : Flag) (s : State) : (raise g s).tables = s.tables := rfl
@[simp] theorem raise_pending (g : Flag) (s : State) : (raise g s).pending = s.pending := rfl
@[simp] theorem raise_readData (g : Flag) (s : State) : (raise g s).readData = s.readData := rfl

/-! `raiseIf` -/

@[simp] theorem raiseIf_true (f : Flag) (s : State) : raiseIf true f s = raise f s := rfl
@[simp] theorem raiseIf_false (f : Flag) (s : State) : raiseIf false f s = s := rfl
@[simp] theorem raiseIf_status (c : Bool) (f : Flag) (s : State) :
    (raiseIf c f s).status = if c then s.status.set f else s.status := by cases c <;> rfl
@[simp] theorem raiseIf_seed (c : Bool) (g : Flag) (s : State) : (raiseIf c g s).seed = s.seed := by
  cases c <;> rfl
@[simp] theorem raiseIf_x (c : Bool) (g : Flag) (s : State) : (raiseIf c g s).x = s.x := by
  cases c <;> rfl
@[simp] theorem raiseIf_y (c : Bool) (g : Flag) (s : State) : (raiseIf c g s).y = s.y := by
  cases c <;> rfl
@[simp] theorem raiseIf_octaves (c : Bool) (g : Flag) (s : State) : (raiseIf c g s).octaves = s.octaves := by
  cases c <;> rfl
@[simp] theorem raiseIf_amp (c : Bool) (g : Flag) (s : State) : (raiseIf c g s).amp = s.amp := by
  cases c <;> rfl
@[simp] theorem raiseIf_freq (c : Bool) (g : Flag) (s : State) : (raiseIf c g s).freq = s.freq := by
  cases c <;> rfl
@[simp] theorem raiseIf_pers (c : Bool) (g : Flag) (s : State) : (raiseIf c g s).pers = s.pers := by
  cases c <;> rfl
@[simp] theorem raiseIf_lac (c : Bool) (g : Flag) (s : State) : (raiseIf c g s).lac = s.lac := by
  cases c <;> rfl
@[simp] theorem raiseIf_result (c : Bool) (g : Flag) (s : State) : (raiseIf c g s).result = s.result := by
  cases c <;> rfl
@[simp] theorem raiseIf_rngState (c : Bool) (g : Flag) (s : State) : (raiseIf c g s).rngState = s.rngState := by
  cases c <;> rfl
@[simp] theorem raiseIf_rngRaw (c : Bool) (g : Flag) (s : State) : (raiseIf c g s).rngRaw = s.rngRaw := by
  cases c <;> rfl
@[simp] theorem raiseIf_tblAddr (c : Bool) (g : Flag) (s : State) : (raiseIf c g s).tblAddr = s.tblAddr := by
  cases c <;> rfl
@[simp] theorem raiseIf_tables (c : Bool) (g : Flag) (s : State) : (raiseIf c g s).tables = s.tables := by
  cases c <;> rfl
@[simp] theorem raiseIf_pending (c : Bool) (g : Flag) (s : State) : (raiseIf c g s).pending = s.pending := by
  cases c <;> rfl
@[simp] theorem raiseIf_readData (c : Bool) (g : Flag) (s : State) : (raiseIf c g s).readData = s.readData := by
  cases c <;> rfl

/-! `noteUnseeded`, how NOISE and FBM start (R207) -/

@[simp] theorem noteUnseeded_status (s : State) :
    (noteUnseeded s).status = { s.status with unseeded := s.status.unseeded || !s.status.seeded } := by
  obtain ⟨⟨sd, _, _, _, u⟩⟩ := s
  cases sd <;> cases u <;> rfl
@[simp] theorem noteUnseeded_seed (s : State) : (noteUnseeded s).seed = s.seed := raiseIf_seed _ _ _
@[simp] theorem noteUnseeded_x (s : State) : (noteUnseeded s).x = s.x := raiseIf_x _ _ _
@[simp] theorem noteUnseeded_y (s : State) : (noteUnseeded s).y = s.y := raiseIf_y _ _ _
@[simp] theorem noteUnseeded_octaves (s : State) : (noteUnseeded s).octaves = s.octaves := raiseIf_octaves _ _ _
@[simp] theorem noteUnseeded_amp (s : State) : (noteUnseeded s).amp = s.amp := raiseIf_amp _ _ _
@[simp] theorem noteUnseeded_freq (s : State) : (noteUnseeded s).freq = s.freq := raiseIf_freq _ _ _
@[simp] theorem noteUnseeded_pers (s : State) : (noteUnseeded s).pers = s.pers := raiseIf_pers _ _ _
@[simp] theorem noteUnseeded_lac (s : State) : (noteUnseeded s).lac = s.lac := raiseIf_lac _ _ _
@[simp] theorem noteUnseeded_result (s : State) : (noteUnseeded s).result = s.result := raiseIf_result _ _ _
@[simp] theorem noteUnseeded_rngState (s : State) : (noteUnseeded s).rngState = s.rngState := raiseIf_rngState _ _ _
@[simp] theorem noteUnseeded_rngRaw (s : State) : (noteUnseeded s).rngRaw = s.rngRaw := raiseIf_rngRaw _ _ _
@[simp] theorem noteUnseeded_tblAddr (s : State) : (noteUnseeded s).tblAddr = s.tblAddr := raiseIf_tblAddr _ _ _
@[simp] theorem noteUnseeded_tables (s : State) : (noteUnseeded s).tables = s.tables := raiseIf_tables _ _ _
@[simp] theorem noteUnseeded_pending (s : State) : (noteUnseeded s).pending = s.pending := raiseIf_pending _ _ _
@[simp] theorem noteUnseeded_readData (s : State) : (noteUnseeded s).readData = s.readData := raiseIf_readData _ _ _

/-! `writeResult`, how NOISE and FBM end (R206) -/

@[simp] theorem writeResult_status (v : F64) (s : State) :
    (writeResult v s).status = { s.status with nonfinite := s.status.nonfinite || isNonfinite v } := by
  obtain ⟨⟨_, _, n, _, _⟩⟩ := s
  rw [writeResult, raiseIf_status]
  cases isNonfinite v <;> cases n <;> rfl
@[simp] theorem writeResult_result (v : F64) (s : State) : (writeResult v s).result = v := raiseIf_result _ _ _
@[simp] theorem writeResult_seed (v : F64) (s : State) : (writeResult v s).seed = s.seed := raiseIf_seed _ _ _
@[simp] theorem writeResult_x (v : F64) (s : State) : (writeResult v s).x = s.x := raiseIf_x _ _ _
@[simp] theorem writeResult_y (v : F64) (s : State) : (writeResult v s).y = s.y := raiseIf_y _ _ _
@[simp] theorem writeResult_octaves (v : F64) (s : State) : (writeResult v s).octaves = s.octaves := raiseIf_octaves _ _ _
@[simp] theorem writeResult_amp (v : F64) (s : State) : (writeResult v s).amp = s.amp := raiseIf_amp _ _ _
@[simp] theorem writeResult_freq (v : F64) (s : State) : (writeResult v s).freq = s.freq := raiseIf_freq _ _ _
@[simp] theorem writeResult_pers (v : F64) (s : State) : (writeResult v s).pers = s.pers := raiseIf_pers _ _ _
@[simp] theorem writeResult_lac (v : F64) (s : State) : (writeResult v s).lac = s.lac := raiseIf_lac _ _ _
@[simp] theorem writeResult_rngState (v : F64) (s : State) : (writeResult v s).rngState = s.rngState := raiseIf_rngState _ _ _
@[simp] theorem writeResult_rngRaw (v : F64) (s : State) : (writeResult v s).rngRaw = s.rngRaw := raiseIf_rngRaw _ _ _
@[simp] theorem writeResult_tblAddr (v : F64) (s : State) : (writeResult v s).tblAddr = s.tblAddr := raiseIf_tblAddr _ _ _
@[simp] theorem writeResult_tables (v : F64) (s : State) : (writeResult v s).tables = s.tables := raiseIf_tables _ _ _
@[simp] theorem writeResult_pending (v : F64) (s : State) : (writeResult v s).pending = s.pending := raiseIf_pending _ _ _
@[simp] theorem writeResult_readData (v : F64) (s : State) : (writeResult v s).readData = s.readData := raiseIf_readData _ _ _

/-- How NOISE and FBM start and end, together: everything they do to a state. -/
theorem writeResult_noteUnseeded (v : F64) (s : State) :
    writeResult v (noteUnseeded s) =
      { s with
        result := v
        status := { s.status with
          unseeded := s.status.unseeded || !s.status.seeded
          nonfinite := s.status.nonfinite || isNonfinite v } } := by
  obtain ⟨⟨sd, _, n, _, u⟩⟩ := s
  rw [writeResult]
  cases isNonfinite v <;> cases sd <;> cases n <;> cases u <;> rfl

/-! `storeBuild`, what a build stores (R135, R141) -/

@[simp] theorem storeBuild_tables (b : Shuffle) (s : State) :
    (storeBuild b s).tables = fillTables (fun k => b.p.getD k 0) s.tables Config.tblN := rfl
@[simp] theorem storeBuild_rngState (b : Shuffle) (s : State) : (storeBuild b s).rngState = b.prng.a := rfl
@[simp] theorem storeBuild_rngRaw (b : Shuffle) (s : State) : (storeBuild b s).rngRaw = b.prng.t := rfl
@[simp] theorem storeBuild_status (b : Shuffle) (s : State) : (storeBuild b s).status = s.status := rfl
@[simp] theorem storeBuild_seed (b : Shuffle) (s : State) : (storeBuild b s).seed = s.seed := rfl
@[simp] theorem storeBuild_x (b : Shuffle) (s : State) : (storeBuild b s).x = s.x := rfl
@[simp] theorem storeBuild_y (b : Shuffle) (s : State) : (storeBuild b s).y = s.y := rfl
@[simp] theorem storeBuild_octaves (b : Shuffle) (s : State) : (storeBuild b s).octaves = s.octaves := rfl
@[simp] theorem storeBuild_amp (b : Shuffle) (s : State) : (storeBuild b s).amp = s.amp := rfl
@[simp] theorem storeBuild_freq (b : Shuffle) (s : State) : (storeBuild b s).freq = s.freq := rfl
@[simp] theorem storeBuild_pers (b : Shuffle) (s : State) : (storeBuild b s).pers = s.pers := rfl
@[simp] theorem storeBuild_lac (b : Shuffle) (s : State) : (storeBuild b s).lac = s.lac := rfl
@[simp] theorem storeBuild_result (b : Shuffle) (s : State) : (storeBuild b s).result = s.result := rfl
@[simp] theorem storeBuild_tblAddr (b : Shuffle) (s : State) : (storeBuild b s).tblAddr = s.tblAddr := rfl
@[simp] theorem storeBuild_pending (b : Shuffle) (s : State) : (storeBuild b s).pending = s.pending := rfl
@[simp] theorem storeBuild_readData (b : Shuffle) (s : State) : (storeBuild b s).readData = s.readData := rfl

/-! `completeSeed`, what SEED leaves (R135, R141) -/

@[simp] theorem completeSeed_tables (b : Shuffle) (s : State) :
    (completeSeed b s).tables = fillTables (fun k => b.p.getD k 0) s.tables Config.tblN := rfl
@[simp] theorem completeSeed_rngState (b : Shuffle) (s : State) : (completeSeed b s).rngState = b.prng.a := rfl
@[simp] theorem completeSeed_rngRaw (b : Shuffle) (s : State) : (completeSeed b s).rngRaw = b.prng.t := rfl
@[simp] theorem completeSeed_status (b : Shuffle) (s : State) :
    (completeSeed b s).status = { s.status with seeded := true } := rfl
@[simp] theorem completeSeed_seed (b : Shuffle) (s : State) : (completeSeed b s).seed = s.seed := rfl
@[simp] theorem completeSeed_x (b : Shuffle) (s : State) : (completeSeed b s).x = s.x := rfl
@[simp] theorem completeSeed_y (b : Shuffle) (s : State) : (completeSeed b s).y = s.y := rfl
@[simp] theorem completeSeed_octaves (b : Shuffle) (s : State) : (completeSeed b s).octaves = s.octaves := rfl
@[simp] theorem completeSeed_amp (b : Shuffle) (s : State) : (completeSeed b s).amp = s.amp := rfl
@[simp] theorem completeSeed_freq (b : Shuffle) (s : State) : (completeSeed b s).freq = s.freq := rfl
@[simp] theorem completeSeed_pers (b : Shuffle) (s : State) : (completeSeed b s).pers = s.pers := rfl
@[simp] theorem completeSeed_lac (b : Shuffle) (s : State) : (completeSeed b s).lac = s.lac := rfl
@[simp] theorem completeSeed_result (b : Shuffle) (s : State) : (completeSeed b s).result = s.result := rfl
@[simp] theorem completeSeed_tblAddr (b : Shuffle) (s : State) : (completeSeed b s).tblAddr = s.tblAddr := rfl
@[simp] theorem completeSeed_pending (b : Shuffle) (s : State) : (completeSeed b s).pending = s.pending := rfl
@[simp] theorem completeSeed_readData (b : Shuffle) (s : State) : (completeSeed b s).readData = s.readData := rfl

/-! `withFetchWord`, the host presenting an instruction -/

@[simp] theorem withFetchWord_pending (s : State) (n w : Nat) :
    (s.withFetchWord n w).pending = .xact (fetchXact n w) :: s.pending := rfl
@[simp] theorem withFetchWord_status (s : State) (n w : Nat) : (s.withFetchWord n w).status = s.status := rfl
@[simp] theorem withFetchWord_seed (s : State) (n w : Nat) : (s.withFetchWord n w).seed = s.seed := rfl
@[simp] theorem withFetchWord_x (s : State) (n w : Nat) : (s.withFetchWord n w).x = s.x := rfl
@[simp] theorem withFetchWord_y (s : State) (n w : Nat) : (s.withFetchWord n w).y = s.y := rfl
@[simp] theorem withFetchWord_octaves (s : State) (n w : Nat) : (s.withFetchWord n w).octaves = s.octaves := rfl
@[simp] theorem withFetchWord_amp (s : State) (n w : Nat) : (s.withFetchWord n w).amp = s.amp := rfl
@[simp] theorem withFetchWord_freq (s : State) (n w : Nat) : (s.withFetchWord n w).freq = s.freq := rfl
@[simp] theorem withFetchWord_pers (s : State) (n w : Nat) : (s.withFetchWord n w).pers = s.pers := rfl
@[simp] theorem withFetchWord_lac (s : State) (n w : Nat) : (s.withFetchWord n w).lac = s.lac := rfl
@[simp] theorem withFetchWord_result (s : State) (n w : Nat) : (s.withFetchWord n w).result = s.result := rfl
@[simp] theorem withFetchWord_rngState (s : State) (n w : Nat) : (s.withFetchWord n w).rngState = s.rngState := rfl
@[simp] theorem withFetchWord_rngRaw (s : State) (n w : Nat) : (s.withFetchWord n w).rngRaw = s.rngRaw := rfl
@[simp] theorem withFetchWord_tblAddr (s : State) (n w : Nat) : (s.withFetchWord n w).tblAddr = s.tblAddr := rfl
@[simp] theorem withFetchWord_tables (s : State) (n w : Nat) : (s.withFetchWord n w).tables = s.tables := rfl
@[simp] theorem withFetchWord_readData (s : State) (n w : Nat) : (s.withFetchWord n w).readData = s.readData := rfl

/-! `applyReset` (R230) -/

@[simp] theorem applyReset_pending (l : List HostEvent) : (applyReset l).pending = l := rfl
@[simp] theorem applyReset_status (l : List HostEvent) : (applyReset l).status = State.reset.status := rfl
@[simp] theorem applyReset_seed (l : List HostEvent) : (applyReset l).seed = State.reset.seed := rfl
@[simp] theorem applyReset_x (l : List HostEvent) : (applyReset l).x = State.reset.x := rfl
@[simp] theorem applyReset_y (l : List HostEvent) : (applyReset l).y = State.reset.y := rfl
@[simp] theorem applyReset_octaves (l : List HostEvent) : (applyReset l).octaves = State.reset.octaves := rfl
@[simp] theorem applyReset_amp (l : List HostEvent) : (applyReset l).amp = State.reset.amp := rfl
@[simp] theorem applyReset_freq (l : List HostEvent) : (applyReset l).freq = State.reset.freq := rfl
@[simp] theorem applyReset_pers (l : List HostEvent) : (applyReset l).pers = State.reset.pers := rfl
@[simp] theorem applyReset_lac (l : List HostEvent) : (applyReset l).lac = State.reset.lac := rfl
@[simp] theorem applyReset_result (l : List HostEvent) : (applyReset l).result = State.reset.result := rfl
@[simp] theorem applyReset_rngState (l : List HostEvent) : (applyReset l).rngState = State.reset.rngState := rfl
@[simp] theorem applyReset_rngRaw (l : List HostEvent) : (applyReset l).rngRaw = State.reset.rngRaw := rfl
@[simp] theorem applyReset_tblAddr (l : List HostEvent) : (applyReset l).tblAddr = State.reset.tblAddr := rfl
@[simp] theorem applyReset_tables (l : List HostEvent) : (applyReset l).tables = State.reset.tables := rfl
@[simp] theorem applyReset_readData (l : List HostEvent) : (applyReset l).readData = State.reset.readData := rfl

/-! `writeReg` (R191) touches none of these, whatever the register -/

@[simp] theorem writeReg_result (r : Reg) (d : Data) (s : State) : (writeReg r d s).result = s.result := by
  cases r <;> rfl
@[simp] theorem writeReg_rngState (r : Reg) (d : Data) (s : State) : (writeReg r d s).rngState = s.rngState := by
  cases r <;> rfl
@[simp] theorem writeReg_rngRaw (r : Reg) (d : Data) (s : State) : (writeReg r d s).rngRaw = s.rngRaw := by
  cases r <;> rfl
@[simp] theorem writeReg_tables (r : Reg) (d : Data) (s : State) : (writeReg r d s).tables = s.tables := by
  cases r <;> rfl
@[simp] theorem writeReg_pending (r : Reg) (d : Data) (s : State) : (writeReg r d s).pending = s.pending := by
  cases r <;> rfl
@[simp] theorem writeReg_readData (r : Reg) (d : Data) (s : State) : (writeReg r d s).readData = s.readData := by
  cases r <;> rfl

/-! Flags of `Status.set` and `Status.clear` (R34, R203) -/

@[simp] theorem set_seeded (st : Status) (f : Flag) : (st.set f).seeded = st.seeded := by cases f <;> rfl
@[simp] theorem set_illegal (st : Status) (f : Flag) : (st.set f).illegal = (st.illegal || decide (f = .illegal)) := by
  cases f <;> simp [Status.set]
@[simp] theorem set_nonfinite (st : Status) (f : Flag) :
    (st.set f).nonfinite = (st.nonfinite || decide (f = .nonfinite)) := by
  cases f <;> simp [Status.set]
@[simp] theorem set_badaccess (st : Status) (f : Flag) :
    (st.set f).badaccess = (st.badaccess || decide (f = .badaccess)) := by
  cases f <;> simp [Status.set]
@[simp] theorem set_unseeded (st : Status) (f : Flag) :
    (st.set f).unseeded = (st.unseeded || decide (f = .unseeded)) := by
  cases f <;> simp [Status.set]
@[simp] theorem clear_seeded (st : Status) (d : Data) : (st.clear d).seeded = st.seeded := rfl
@[simp] theorem clear_illegal (st : Status) (d : Data) : (st.clear d).illegal = (st.illegal && !d.getLsbD 1) := rfl
@[simp] theorem clear_nonfinite (st : Status) (d : Data) : (st.clear d).nonfinite = (st.nonfinite && !d.getLsbD 2) := rfl
@[simp] theorem clear_badaccess (st : Status) (d : Data) : (st.clear d).badaccess = (st.badaccess && !d.getLsbD 3) := rfl
@[simp] theorem clear_unseeded (st : Status) (d : Data) : (st.clear d).unseeded = (st.unseeded && !d.getLsbD 4) := rfl

/-- The bits of the word of STATUS. -/
theorem getLsbD_statusWord (st : Status) (k : Nat) :
    st.word.getLsbD k =
      if k = 0 then st.seeded else if k = 1 then st.illegal else if k = 2 then st.nonfinite
      else if k = 3 then st.badaccess else if k = 4 then st.unseeded else false := by
  obtain ⟨a, b, c, d, e⟩ := st
  by_cases hk : k < 32
  · interval_cases k <;> cases a <;> cases b <;> cases c <;> cases d <;> cases e <;> decide
  · rw [BitVec.getLsbD_of_ge _ _ (by omega)]
    repeat (rw [if_neg (by omega)])

end Sys2Proof.Machine
end

