-- ==== Sys2Proof/Laws/Step.lean ====
section
/-! SUPPORT. Everything an instruction and a step can do, said once: a proof about them is a case analysis over these
lemmas and unfolds neither. -/

namespace Sys2Proof.Machine

open Sys2Proof (Instr Reg Command)

@[simp] theorem exec_nop (s : State) : exec .nop s = .next s := rfl
@[simp] theorem exec_seed (s : State) : exec .seed s = .next (completeSeed (buildPermutation s.seed s.rngRaw) s) := rfl
theorem exec_noise (s : State) :
    exec .noise s = .next (writeResult (noise2 s.tables s.x s.y) (noteUnseeded s)) := rfl
theorem exec_fbm (s : State) :
    exec .fbm s = .next (writeResult
      (fbmTotal (noise2 s.tables) s.x s.y s.octaves.toNat s.amp s.freq s.pers s.lac) (noteUnseeded s)) := rfl
theorem exec_rd (r : Reg) (s : State) :
    exec (.rd r) s = .next { raiseIf (readIsBad r) .badaccess s with readData := some (readReg r s) } := rfl

/-- A write to any register but CMD. -/
theorem exec_wr {r : Reg} (h : r ≠ .cmd) (d : Data) (s : State) : exec (.wr r d) s = .next (writeReg r d s) := by
  cases r <;> first | rfl | exact absurd rfl h

/-- A write to CMD presents the low 32 bits of its data. -/
theorem exec_wr_cmd (d : Data) (s : State) : exec (.wr .cmd d) s = execCommandWord (d.setWidth 32) s := rfl

/-- A command word is performed as the command it encodes, or only sets ILLEGAL. -/
theorem execCommandWord_cases (w : CmdWord) (s : State) :
    (∃ c : Command, w = encodeCommand c ∧ execCommandWord w s = exec c.toInstr s) ∨
      (3 < w.toNat ∧ execCommandWord w s = .next (raise .illegal s)) := by
  rcases decodeCommand_cases w with ⟨rfl, -⟩ | ⟨rfl, -⟩ | ⟨rfl, -⟩ | ⟨rfl, -⟩ | ⟨h, e, he⟩
  · exact .inl ⟨.nop, rfl, rfl⟩
  · exact .inl ⟨.seed, rfl, rfl⟩
  · exact .inl ⟨.noise, rfl, rfl⟩
  · exact .inl ⟨.fbm, rfl, rfl⟩
  · exact .inr ⟨h, by rw [execCommandWord, he]⟩

/-- The word of a command runs it. -/
theorem execCommandWord_encodeCommand (c : Command) (s : State) :
    execCommandWord (encodeCommand c) s = exec c.toInstr s := by
  cases c <;> rfl

/-- An instruction that runs a command does what the command does. -/
theorem exec_of_runs {c : Command} {i : Instr} (h : i.runs c) (s : State) : exec i s = exec c.toInstr s := by
  rcases h with rfl | ⟨d, rfl, hd⟩
  · rfl
  · rw [exec_wr_cmd, hd, execCommandWord_encodeCommand]

theorem or_extend {A B C D P : Prop} (h : A ∨ B ∨ C ∨ D) : A ∨ B ∨ C ∨ D ∨ P :=
  h.imp id (Or.imp id (Or.imp id Or.inl))

/-- Everything an instruction can do when it leaves `t`. -/
theorem exec_cases {i : Instr} {s t : State} (h : exec i s = .next t) :
    (i.runs .nop ∧ t = s) ∨
      (i.runs .seed ∧ t = completeSeed (buildPermutation s.seed s.rngRaw) s) ∨
      (i.runs .noise ∧ t = writeResult (noise2 s.tables s.x s.y) (noteUnseeded s)) ∨
      (i.runs .fbm ∧ t = writeResult
        (fbmTotal (noise2 s.tables) s.x s.y s.octaves.toNat s.amp s.freq s.pers s.lac) (noteUnseeded s)) ∨
      (∃ d, i = .wr .cmd d ∧ 3 < (d.setWidth 32).toNat ∧ t = raise .illegal s) ∨
      (∃ r d, i = .wr r d ∧ r ≠ .cmd ∧ t = writeReg r d s) ∨
      (∃ r, i = .rd r ∧ t = { raiseIf (readIsBad r) .badaccess s with readData := some (readReg r s) }) := by
  have command : ∀ c : Command, i.runs c → exec c.toInstr s = .next t →
      (i.runs .nop ∧ t = s) ∨ (i.runs .seed ∧ t = completeSeed (buildPermutation s.seed s.rngRaw) s) ∨
      (i.runs .noise ∧ t = writeResult (noise2 s.tables s.x s.y) (noteUnseeded s)) ∨
      (i.runs .fbm ∧ t = writeResult
        (fbmTotal (noise2 s.tables) s.x s.y s.octaves.toNat s.amp s.freq s.pers s.lac) (noteUnseeded s)) := by
    intro c hc hx
    cases c
    · exact .inl ⟨hc, (Host.Outcome.next.inj hx).symm⟩
    · exact .inr (.inl ⟨hc, (Host.Outcome.next.inj hx).symm⟩)
    · exact .inr (.inr (.inl ⟨hc, (Host.Outcome.next.inj hx).symm⟩))
    · exact .inr (.inr (.inr ⟨hc, (Host.Outcome.next.inj hx).symm⟩))
  cases i with
  | nop => exact or_extend (command .nop (.inl rfl) h)
  | seed => exact or_extend (command .seed (.inl rfl) h)
  | noise => exact or_extend (command .noise (.inl rfl) h)
  | fbm => exact or_extend (command .fbm (.inl rfl) h)
  | wr r d =>
    by_cases hr : r = .cmd
    · subst hr
      rw [exec_wr_cmd] at h
      rcases execCommandWord_cases (d.setWidth 32) s with ⟨c, hw, he⟩ | ⟨hw, he⟩
      · exact or_extend (command c (.inr ⟨d, rfl, hw⟩) (he ▸ h))
      · rw [he] at h
        exact .inr (.inr (.inr (.inr (.inl ⟨d, rfl, hw, (Host.Outcome.next.inj h).symm⟩))))
    · rw [exec_wr hr] at h
      exact .inr (.inr (.inr (.inr (.inr (.inl ⟨r, d, rfl, hr, (Host.Outcome.next.inj h).symm⟩)))))
  | rd r => exact .inr (.inr (.inr (.inr (.inr (.inr ⟨r, rfl, (Host.Outcome.next.inj h).symm⟩)))))

/-- Everything a step can do when it leaves `t`. -/
theorem step_cases {s t : State} (h : step s = .next t) :
    (s.pending = [] ∧ t = s) ∨
      (∃ w later, s.pending = .xact w :: later ∧ exec (decodeXact w) { s with pending := later } = .next t) ∨
      (∃ cut later, s.pending = .reset cut :: later ∧ t = applyReset later) := by
  rw [step] at h
  split at h
  · exact .inl ⟨‹_›, (Host.Outcome.next.inj h).symm⟩
  · exact .inr (.inl ⟨_, _, ‹_›, h⟩)
  · exact .inr (.inr ⟨_, _, ‹_›, (Host.Outcome.next.inj h).symm⟩)

/-- What an idle step does. -/
theorem step_idle {s : State} (h : s.pending = []) : step s = .next s := by rw [step, h]

/-- What a step with a transaction presented does. -/
theorem step_xact {s : State} {w : XactWord} {later : List HostEvent} (h : s.pending = .xact w :: later) :
    step s = exec (decodeXact w) { s with pending := later } := by rw [step, h]

/-- What a step with an assertion of reset does. -/
theorem step_reset {s : State} {cut : Option XactWord} {later : List HostEvent} (h : s.pending = .reset cut :: later) :
    step s = .next (applyReset later) := by rw [step, h]

end Sys2Proof.Machine
end

