-- ==== Sys2Proof/Machine/Script.lean ====
section
/-! DEFINITION. The pseudo-operations of host scripts (R109) and what a host presents for a script (R108, R110).
Values are 64-bit patterns; the decimal notation `f64(...)` of R108 is text and is left out (entry 19). -/

namespace Sys2Proof.Machine

/-- The pseudo-operations (R109). -/
inductive Pseudo where
  | nop
  | seed (s : Data)
  | noise (x y : Data)
  | fbm (x y o a f p l : Data)
  | tblrd (n : Data)
  | clrerr
  | status
deriving DecidableEq, Repr

/-- The exact expansions (R109). -/
def Pseudo.expand : Pseudo → List Instr
  | .nop => [.wr .cmd 0x0]
  | .seed s => [.wr .seed s, .wr .cmd 0x1]
  | .noise x y => [.wr .x x, .wr .y y, .wr .cmd 0x2, .rd .result]
  | .fbm x y o a f p l =>
    [.wr .x x, .wr .y y, .wr .octaves o, .wr .amp a, .wr .freq f, .wr .pers p, .wr .lac l, .wr .cmd 0x3, .rd .result]
  | .tblrd n => [.wr .tblAddr n, .rd .tblData]
  | .clrerr => [.wr .status 0x1E]
  | .status => [.rd .status]

/-- The events of a script (R110): each line's transaction word, in order. -/
def scriptEvents (is : List Instr) : List HostEvent := is.map fun i => .xact (encodeXact i)

end Sys2Proof.Machine
end

