-- ==== Sys2Proof/Tests/Slice0.lean ====
section
/-! SUPPORT. The model's own tests. Expected values come from spec/: the rule or the vector is named at each test. After
them, for every statement with hypotheses, a witness that meets them, each clause at a boundary. -/

namespace Sys2Proof.Tests

open Sys2Proof Sys2Proof.Machine

/-- What a run of one instruction leaves, `none` if it stops. -/
def left : Host.Outcome State Fault Refusal → Option State
  | .next s => some s
  | _ => none

/-- The reset state at a point. -/
def at_ (x y : F64) : State := { State.reset with x := x, y := y }

/-! Well-formedness: an ill-formed term for each check -/

theorem test_wf_refuses_reserved_below_16 : (Instr.rd (.reserved 0x03)).wellFormed = false := by decide
theorem test_wf_refuses_reserved_write : (Instr.wr (.reserved 0x0F) 0).wellFormed = false := by decide
theorem test_wf_refuses_rd_word_with_data : xactWordWellFormed 0x0A0000000000000001 = false := by decide
theorem test_wf_refuses_reserved_bits : cmdWordWellFormed 0x00000100 = false := by decide
theorem test_wf_refuses_reserved_opcode : cmdWordWellFormed 0x00000004 = false := by decide

/-! Decoding words written out from R100, R103, R110 and the index column of R32 -/

theorem test_decode_nop : decodeTableWord 32 0x00000000 = some .nop := by decide
theorem test_decode_seed : decodeTableWord 32 0x00000001 = some .seed := by decide
theorem test_decode_noise : decodeTableWord 32 0x00000002 = some .noise := by decide
theorem test_decode_fbm : decodeTableWord 32 0x00000003 = some .fbm := by decide
theorem test_decode_wr_cmd : decodeTableWord 72 0x200000000000000002 = some (.wr .cmd 2) := by decide
theorem test_decode_wr_x : decodeTableWord 72 0x233FD0000000000000 = some (.wr .x 0x3FD0000000000000) := by decide
theorem test_decode_wr_lac : decodeTableWord 72 0x29FFFFFFFFFFFFFFFF = some (.wr .lac 0xFFFFFFFFFFFFFFFF) := by decide
theorem test_decode_wr_reserved : decodeTableWord 72 0x370000000000000005 = some (.wr (.reserved 0x17) 5) := by decide
theorem test_decode_rd_result : decodeTableWord 72 0x0A0000000000000000 = some (.rd .result) := by decide
theorem test_decode_rd_last : decodeTableWord 72 0x1F0000000000000000 = some (.rd (.reserved 0x1F)) := by decide
theorem test_decode_rd_ignores_data : decodeTableWord 72 0x0F0000000000000007 = some (.rd .id) := by decide
theorem test_decode_reserved_opcode : decodeRow 32 0x00000004 = .error .reservedOpcode := by decide
theorem test_decode_reserved_bits : decodeRow 32 0x80000001 = .error .reservedBits := by decide
theorem test_decode_too_wide : decodeRow 72 0x400000000000000000 = .error .badWidth := by decide

/-- The `noise` pseudo-operation's transaction words (R109, R110). -/
theorem test_script_noise : scriptEvents (Pseudo.expand (.noise 0x3FD0000000000000 0x3FE8000000000000)) =
    [.xact 0x233FD0000000000000, .xact 0x243FE8000000000000, .xact 0x200000000000000002,
      .xact 0x0A0000000000000000] := by decide

/-! NOP (V94) -/

theorem test_nop : left (exec (.wr .cmd 0) (at_ 5 7)) = some (at_ 5 7) := by decide

/-! SEED: the first three swaps of R146, and the PRNG registers of R141 -/

theorem test_seed_first_swaps :
    (let p := (shuffle { prng := { a := 1337, t := 0 }, p := identityArray } 3).p
     [p.getD 0 0, p.getD 1 0, p.getD 2 0, p.getD 73 0, p.getD 109 0, p.getD 192 0, p.getD 3 0]) =
      [73, 109, 192, 0, 1, 2, 3] := by decide +kernel
theorem test_seed_registers : prngNext^[255] { a := 1337, t := 0 } = { a := 0x99424480, t := 0xB78B2EBD } := by
  decide +kernel

/-! NOISE: V70 on the reset tables, and the trace of R174, with the table entries it names -/

theorem test_noise_before_seed :
    (left (exec .noise (at_ 0x3FD3333333333333 0x3FC999999999999A))).map (fun t => (t.result, t.status.word)) =
      some (0xBFCBB5BA7B522195, 0x10) := by decide +kernel
theorem test_noise_trace :
    noise2 { perm := [(1, 109), (2, 192)], pm12 := [(109, 9), (110, 1), (193, 7)] } 0x3FD0000000000000
      0x3FE8000000000000 = 0x3FE410A9AE2C5912 := by decide +kernel

/-! FBM: one octave of amplitude and frequency 1 is the sample (R184, V70); no octave (V107) -/

theorem test_fbm_one_octave :
    (left (exec .fbm { at_ 0x3FD3333333333333 0x3FC999999999999A with
      octaves := 1, amp := cONE, freq := cONE, pers := canonNaN, lac := canonNaN })).map (·.result) =
      some 0xBFCBB5BA7B522195 := by decide +kernel
theorem test_fbm_no_octave :
    (left (exec .fbm { at_ canonNaN canonNaN with amp := canonNaN, result := 5 })).map
      (fun t => (t.result, t.status.word)) = some (0, 0x10) := by decide

/-! WR: V97, V104 -/

theorem test_wr_read_only :
    (left (exec (.wr .result 1) State.reset)).map (fun t => (t.result, t.status.word)) = some (0, 0x08) := by decide
theorem test_wr_status :
    (left (exec (.wr .status 0x04) { State.reset with status := ⟨true, true, true, true, true⟩ })).map
      (·.status.word) = some 0x1B := by decide

/-! RD: V93, V98 -/

theorem test_rd_table_window :
    (left (exec (.rd .tblData) State.reset)).map (fun t => (t.readData, t.status.word)) = some (some 0x464, 0) := by
  decide
theorem test_rd_reserved :
    (left (exec (.rd (.reserved 0x10)) State.reset)).map (fun t => (t.readData, t.status.word)) =
      some (some 0, 0x08) := by decide

/-! Witnesses: hypotheses of the statements, met together -/

/-- A seeded state: the reset state after a build with seed 5, completed as SEED completes it. -/
def seeded : State := completeSeed (buildPermutation 5 0) State.reset

theorem seeded_tables_inv : TablesInv seeded.tables :=
  tablesInv_fillTables (length_buildPermutation 5 0) (nodup_buildPermutation 5 0) tables_wf_empty

theorem seeded_inv : Inv seeded := ⟨seeded_tables_inv, by decide⟩

theorem seeded_built : BuiltFrom 5 seeded := by
  refine ⟨seeded_tables_inv.wf, fun n hn => ?_, rfl, rfl⟩
  have hn' : n < Config.tblN := hn
  have hwf : State.reset.tables.wf = true := tables_wf_empty
  rw [seeded, completeSeed_tables, readPerm_fillTables _ hwf (le_refl _), readPm12_fillTables _ hwf (le_refl _),
    if_pos hn', if_pos hn']
  exact ⟨rfl, rfl⟩

theorem test_witness_DecodeOfEncodeIsTheInstruction :
    (Instr.wr (.reserved 0x10) 0xFFFFFFFFFFFFFFFF).wellFormed = true ∧ (Instr.rd (.reserved 0x1F)).wellFormed = true ∧
      (Instr.wr .cmd 0).wellFormed = true ∧ (Instr.rd .id).wellFormed = true ∧ Instr.fbm.wellFormed = true := by
  decide
theorem test_witness_EncodeOfDecodeIsTheWord :
    xactWordWellFormed (rdWord .id) = true ∧ xactWordWellFormed (wrWord .cmd 3) = true ∧ cmdWordWellFormed 3 = true ∧
      cmdWordWellFormed 4 = false ∧ cmdWordWellFormed 0x100 = false ∧ cmdWordWellFormed 0xFFFFFFFF = false := by decide
theorem test_witness_CommandWordSelectsTheCommand :
    ((0x100 : Data).extractLsb' 8 24 ≠ 0#24) ∧ 4 ≤ ((0x4 : Data).extractLsb' 0 8).toNat ∧
      (0xFFFFFFFF00000003 : Data).extractLsb' 8 24 = 0#24 ∧ ((0x0 : Data).extractLsb' 0 8).toNat = 0 ∧
      ((0x1 : Data).extractLsb' 0 8).toNat = 1 ∧ ((0x2 : Data).extractLsb' 0 8).toNat = 2 ∧
      ((0xFFFFFFFF00000003 : Data).extractLsb' 0 8).toNat = 3 := by decide
theorem test_witness_ReservedCommandWordsOnlySetIllegal :
    (0x4 : Data).setWidth 32 ≠ 0#32 ∧ (0x4 : Data).setWidth 32 ≠ 1#32 ∧ (0x4 : Data).setWidth 32 ≠ 2#32 ∧
      (0x4 : Data).setWidth 32 ≠ 3#32 := by decide
theorem test_witness_StepRunsTheDecodedInstruction :
    (State.reset.withFetchWord 72 0x0A0000000000000000).pending = .xact 0x0A0000000000000000 :: [] := by decide
theorem test_witness_PlacedInstructionRunsNext :
    (Instr.wr (.reserved 0x10) 5).wellFormed = true ∧ cmdWordWellFormed 4 = false := by decide
theorem test_witness_IdleStepHoldsTheState : State.reset.pending = [] := rfl
theorem test_witness_ResetEventLeavesTheResetState :
    ({ at_ 1 2 with pending := [.reset none] }).pending = .reset none :: [] ∧
      ({ at_ 1 2 with pending := [.reset (some 7), .xact 0] }).pending = .reset (some 7) :: [.xact 0] := ⟨rfl, rfl⟩
theorem test_witness_ResetStateIsAsStated : (at_ 1 2).tables.wf = true ∧ (at_ 1 2).seed = 0 := by decide
theorem test_witness_TableInvariantsAfterResetAndSeed :
    (at_ 1 2).tables.wf = true ∧ ∃ t, exec .seed (at_ 1 2) = .next t := ⟨by decide, _, rfl⟩
theorem test_witness_EveryStepKeepsTheInvariant : Inv seeded ∧ ∃ t, step seeded = .next t :=
  ⟨seeded_inv, _, step_idle rfl⟩
theorem test_witness_OnlySeedChangesTheTables :
    (∃ t, exec (.wr .cmd 2) State.reset = .next t) ∧ ¬ (Instr.wr .cmd 2).runs .seed := by
  refine ⟨⟨_, rfl⟩, ?_⟩
  rintro (h | ⟨d, h, hd⟩)
  · cases h
  · cases h
    exact absurd hd (by decide)
theorem test_witness_TablesAndPrngAreOneBuild :
    (∃ S : U32, BuiltFrom S seeded) ∧ ∃ t, step seeded = .next t := ⟨⟨5, seeded_built⟩, _, step_idle rfl⟩
theorem test_witness_SeededIsSetBySeedAndClearedByReset :
    (∃ t, exec .seed State.reset = .next t) ∧ (∃ t, step { seeded with pending := [.reset none] } = .next t) ∧
      ∃ t, step (State.reset.withFetchWord 32 1) = .next t := ⟨⟨_, rfl⟩, ⟨_, rfl⟩, ⟨_, rfl⟩⟩
theorem test_witness_IntegerPrimitives : 0 < 1 ∧ 31 < 32 := by decide
theorem test_witness_PrngStateSequence : 1 ≤ 1 ∧ (2 ^ 32) % 2 ^ 32 = 0 % 2 ^ 32 := by decide
theorem test_witness_ScaledDrawFormsAgree : 0 ≤ 254 ∧ 254 ≤ 254 := by decide
theorem test_witness_SeedShufflesAndFills : (at_ 1 2).tables.wf = true ∧ seeded.tables.wf = true :=
  ⟨by decide, seeded_tables_inv.wf⟩
theorem test_witness_SeedLeavesThePrngRegisters :
    (∃ t, exec .seed State.reset = .next t) ∧ State.reset.seed = 0 ∧
      (∃ t, exec .seed { State.reset with seed := 1337 } = .next t) ∧
      ({ State.reset with seed := 1337 } : State).seed = 1337 := ⟨⟨_, rfl⟩, rfl, ⟨_, rfl⟩, rfl⟩
theorem test_witness_SameSeedSameTables :
    (at_ 1 2).tables.wf = true ∧ seeded.tables.wf = true ∧ (at_ 1 2).seed = seeded.seed ∧
      (∃ t, exec .seed (at_ 1 2) = .next t) ∧ ∃ t, exec .seed seeded = .next t :=
  ⟨by decide, seeded_tables_inv.wf, rfl, ⟨_, rfl⟩, ⟨_, rfl⟩⟩
theorem test_witness_FaddIsCorrectlyRounded :
    isFinite 0x7FEFFFFFFFFFFFFF = true ∧ isFinite 0x8000000000000001 = true ∧
      toRat 0x7FEFFFFFFFFFFFFF + toRat 0x7FEFFFFFFFFFFFFF ≠ 0 ∧ toRat cONE + toRat (fneg cONE) = 0 := by decide +kernel
theorem test_witness_FmulIsCorrectlyRounded :
    isFinite 0x0000000000000001 = true ∧ isFinite 0x7FEFFFFFFFFFFFFF = true ∧ toRat cONE * toRat (zeroOf true) = 0 := by
  decide +kernel
theorem test_witness_SpecialOperands :
    isNaN 0xFFF8000000000001 = true ∧ isFinite 0x0000000000000001 = true ∧ toRat 0x0000000000000001 ≠ 0 := by
  decide +kernel
theorem test_witness_NaNIsCanonicalAndAlike :
    isNaN (fadd (infOf true) (infOf false)) = true ∧ isNaN (fsub (infOf true) (infOf true)) = true ∧
      isNaN (fmul (zeroOf true) (infOf true)) = true ∧ isNaN (fneg 0x7FF0000000000001) = true ∧
      isNaN (ffloor 0xFFFFFFFFFFFFFFFF) = true ∧ isNaN 0x7FF0000000000001 = true ∧
      isNaN 0xFFF8000000000001 = true := by decide +kernel
theorem test_witness_NegationFlipsTheSign : isNaN (infOf true) = false ∧ isNaN cZERO = false := by decide
theorem test_witness_FloorIsExact :
    isFinite 0x8000000000000001 = true ∧ -1 < toRat 0x8000000000000001 ∧ toRat 0x8000000000000001 < 0 ∧
      0 < toRat 0x3FEFFFFFFFFFFFFF ∧ toRat 0x3FEFFFFFFFFFFFFF < 1 ∧ 2 ^ 52 ≤ |toRat 0x4330000000000000| ∧
      isNaN 0x7FF0000000000001 = true := by decide +kernel
theorem test_witness_WrapIsTheFlooredRemainder :
    toRat 0xBFF0000000000000 = ((-1 : ℤ) : ℚ) ∧ toRat 0x43C0000000000000 = ((2 ^ 61 : ℤ) : ℚ) ∧
      isFinite 0x43C0000000000000 = true ∧ isFinite canonNaN = false ∧ isFinite (infOf true) = false := by
  decide +kernel
theorem test_witness_AddingZeroKeepsTheValue :
    isNaN 0x8000000000000001 = false ∧ (0x8000000000000001 : F64) ≠ zeroOf false ∧
      (0x8000000000000001 : F64) ≠ zeroOf true := by decide
theorem test_witness_CornerContribution :
    flt (falloff cONE cZERO) cZERO = true ∧ flt (falloff cHALF cHALF) cZERO = false ∧
      isNaN (falloff canonNaN cZERO) = true ∧ fmul cZERO cZERO = cZERO ∧
      fmul 0x0000000000000001 0x0000000000000001 = cZERO := by decide +kernel
theorem test_witness_NonfinitePointGivesNaN :
    isFinite canonNaN = false ∧ isFinite (infOf true) = false ∧
      isFinite (fadd 0x7FEFFFFFFFFFFFFF 0x7FEFFFFFFFFFFFFF) = false ∧
      (let x : F64 := 0x7FEFFFFFFFFFFFFF
       isFinite (fadd x cZERO) = true ∧ isFinite (fadd x (fmul (fadd x cZERO) cF2)) = false ∧
         isFinite (fadd x (fmul (fadd cZERO x) cF2)) = false) ∧
      isFinite (at_ canonNaN cZERO).x = false ∧ isFinite (at_ cZERO (infOf false)).y = false := by decide +kernel
theorem test_witness_ZeroAtAntidiagonalIntegers :
    isFinite 0x4008000000000000 = true ∧ toRat 0x4008000000000000 = ((3 : ℤ) : ℚ) ∧
      toRat (zeroOf true) = ((0 : ℤ) : ℚ) := by decide +kernel
theorem test_witness_SampleIsBounded :
    isNaN (noise2 State.reset.tables 0x3FD3333333333333 0x3FC999999999999A) = false ∧
      (Instr.wr .cmd 2).runs .noise ∧ ∃ t, exec (.wr .cmd 2) State.reset = .next t :=
  ⟨by decide +kernel, .inr ⟨2, rfl, by decide⟩, _, rfl⟩
theorem test_witness_KernelReadsTableIndicesOnly :
    (∀ n ≤ 256, readPerm State.reset.tables n = readPerm { perm := [(257, 0)], pm12 := [] } n) ∧
      ∀ n < 512, readPm12 State.reset.tables n = readPm12 { perm := [(257, 0)], pm12 := [] } n := by
  refine ⟨fun n hn => ?_, fun n _ => rfl⟩
  have : n ≠ 257 := by omega
  simp [readPerm, readEntry, State.reset, this]
theorem test_witness_WrapFirstEqualsAddFirst :
    TablesInv seeded.tables ∧ ((255 : BitVec 8).toNat + 1) % 256 = 0 := ⟨seeded_tables_inv, rfl⟩
theorem test_witness_GradientIndexIsBelowTwelve : TablesInv seeded.tables ∧ 1 ≤ 1 := ⟨seeded_tables_inv, le_refl _⟩
theorem test_witness_FbmSumsItsOctaves : 0 < ({ State.reset with octaves := 0xFFFFFFFF } : State).octaves.toNat := by
  decide
theorem test_witness_ZeroOctavesGiveZero : (at_ canonNaN canonNaN).octaves = 0 := rfl
theorem test_witness_OneOctaveIsTheScaledSample :
    ({ State.reset with octaves := 1 } : State).octaves = 1 ∧
      fmul (noise2 State.reset.tables (fmul cZERO cONE) (fmul cZERO cONE)) cONE ≠ zeroOf true ∧
      fmul (noise2 State.reset.tables (fmul cZERO cONE) (fmul cZERO cONE)) (fneg cONE) = zeroOf true := by
  decide +kernel
theorem test_witness_QueriesAreRepeatable_noise :
    let s := at_ 1 2
    let u : State := { at_ 1 2 with octaves := 7, amp := canonNaN, seed := 9 }
    Instr.noise.runs .noise ∧ u.x = s.x ∧ u.y = s.y ∧ u.tables = s.tables ∧ (∃ t, exec .noise s = .next t) ∧
      ∃ v, exec .noise u = .next v := ⟨.inl rfl, rfl, rfl, rfl, ⟨_, rfl⟩, ⟨_, rfl⟩⟩
theorem test_witness_QueriesAreRepeatable_fbm :
    let s := at_ 1 2
    let u : State := { at_ 1 2 with seed := 9, result := 5, tblAddr := 511 }
    (Instr.wr .cmd 0xFFFFFFFF00000003).runs .fbm ∧ u.x = s.x ∧ u.y = s.y ∧ u.octaves = s.octaves ∧ u.amp = s.amp ∧
      u.freq = s.freq ∧ u.pers = s.pers ∧ u.lac = s.lac ∧ u.tables = s.tables ∧
      (∃ t, exec (.wr .cmd 0xFFFFFFFF00000003) s = .next t) ∧ ∃ v, exec (.wr .cmd 0xFFFFFFFF00000003) u = .next v :=
  ⟨.inr ⟨_, rfl, by decide⟩, rfl, rfl, rfl, rfl, rfl, rfl, rfl, rfl, ⟨_, rfl⟩, ⟨_, rfl⟩⟩
theorem test_witness_QueriesAreRepeatable_between :
    ¬ Instr.fbm.runs .seed ∧
      (∀ r ∈ [Reg.x, .y, .octaves, .amp, .freq, .pers, .lac], ∀ d, Instr.fbm ≠ .wr r d) ∧
      ∃ u, exec .fbm (at_ 1 2) = .next u := by
  refine ⟨?_, fun _ _ _ => Instr.noConfusion, _, rfl⟩
  rintro (h | ⟨_, h, _⟩) <;> cases h
theorem test_witness_NopChangesNothing : (0xFFFFFFFF00000000 : Data).setWidth 32 = 0#32 := by decide
theorem test_witness_WriteEffects :
    (0xFFFFFFFF00000003 : Data).setWidth 32 = encodeCommand .fbm ∧
      (∀ c : Command, (0x4 : Data).setWidth 32 ≠ encodeCommand c) ∧
      Reg.result ∈ [Reg.result, .rngState, .rngRaw, .tblData, .id] := by
  refine ⟨by decide, fun c => ?_, by decide⟩
  cases c <;> decide
theorem test_witness_StatusBits : ∃ t, exec (.wr .status 0xFFFFFFFFFFFFFFFF) State.reset = .next t := ⟨_, rfl⟩
theorem test_witness_ClearingFlags :
    (⟨true, false, true, false, true⟩ : Status).word = 0x15 ∧
      (∃ t, exec (.wr .status 0x1E) (at_ canonNaN 0) = .next t ∧ t.status.seeded = false ∧
        ∃ u, exec .noise t = .next u ∧ isNonfinite u.result = true) ∧
      ∃ t, exec (.wr .status 0x1E) { at_ 0 0 with octaves := 1, amp := canonNaN } = .next t ∧
        ∃ u, exec .fbm t = .next u ∧ isNonfinite u.result = true := by
  refine ⟨by decide, ⟨_, rfl, rfl, _, rfl, ?_⟩, ⟨_, rfl, _, rfl, ?_⟩⟩
  · rw [writeResult_result]
    decide +kernel
  · rw [writeResult_result]
    decide +kernel
theorem test_witness_ClearingFlags_causes :
    ∃ t, exec (.wr .status 0x1E) State.reset = .next t ∧
      ((∀ c : Command, (0xFFFFFFFF : Data).setWidth 32 ≠ encodeCommand c) ∧
        ∃ u, exec (.wr .cmd 0xFFFFFFFF) t = .next u) ∧
      (Reg.id.notWritable = true ∧ ∃ u, exec (.wr .id 0) t = .next u) ∧
      ((Reg.reserved 0x10).notWritable = true ∧ ∃ u, exec (.wr (.reserved 0x10) 0) t = .next u) ∧
      (∃ u, exec (.rd (.reserved 0x1F)) t = .next u) ∧
      (Instr.wr .cmd 3).runs .fbm ∧ ∃ u, exec (.wr .cmd 3) t = .next u := by
  refine ⟨_, rfl, ⟨fun c => ?_, ⟨_, rfl⟩⟩, ⟨rfl, _, rfl⟩, ⟨rfl, _, rfl⟩, ⟨_, rfl⟩, .inr ⟨3, rfl, by decide⟩, _, rfl⟩
  cases c <;> decide
theorem test_witness_BadAccess : (Reg.reserved 0x1F).notWritable = true ∧ Reg.result.notWritable = true := by decide
theorem test_witness_FlagsHaveTheListedCauses :
    (∃ t, exec (.wr .cmd 4) State.reset = .next t) ∧ (∃ t, exec .noise (at_ canonNaN 0) = .next t) ∧
      (∃ t, exec (.wr .id 0) State.reset = .next t) ∧ ∃ t, exec (.wr .status 0x1E) State.reset = .next t :=
  ⟨⟨_, rfl⟩, ⟨_, rfl⟩, ⟨_, rfl⟩, ⟨_, rfl⟩⟩
theorem test_witness_FlagsDoNotAffectResults :
    Instr.noise ≠ .rd .status ∧ (∃ t, exec .noise State.reset = .next t) ∧
      ∃ u, exec .noise { State.reset with status := ⟨true, true, true, true, true⟩ } = .next u :=
  ⟨by decide, ⟨_, rfl⟩, ⟨_, rfl⟩⟩
theorem test_witness_WriteThenRead :
    (∃ t, exec (.wr .lac canonNaN) State.reset = .next t) ∧ (∃ t, exec (.wr .tblAddr 0x3FF) State.reset = .next t) ∧
      ∃ t, exec (.wr .octaves 0xFFFFFFFF00000004) State.reset = .next t := ⟨⟨_, rfl⟩, ⟨_, rfl⟩, ⟨_, rfl⟩⟩
theorem test_witness_TableWindow :
    ∃ t, exec (.wr .tblAddr 0x3FF) State.reset = .next t ∧ ∃ u, exec (.rd .tblData) t = .next u := ⟨_, rfl, _, rfl⟩

end Sys2Proof.Tests
end

section
/-! The primitives of R10 to R21 on all operands: what each one answers, case by case on what its operands stand for
(`unpack`), then the statements about them. -/

namespace Sys2Proof.Machine

/-! The three kinds of pattern, as `isNaN` and `isFinite` see them -/

theorem isNaN_eq_false_iff (a : F64) : isNaN a = false ↔ unpack a ≠ .nan := by
  rw [← Bool.not_eq_true, isNaN_iff]

theorem isFinite_of_unpack {a : F64} {s : Bool} {m e : Nat} (h : unpack a = .fin s m e) : isFinite a = true :=
  (isFinite_iff a).2 ⟨s, m, e, h⟩

theorem isFinite_eq_false_of_unpack {a : F64} (h : ∀ s m e, unpack a ≠ .fin s m e) : isFinite a = false := by
  rw [← Bool.not_eq_true, isFinite_iff]
  rintro ⟨s, m, e, hu⟩
  exact h s m e hu

@[simp] theorem isNaN_zeroOf (s : Bool) : isNaN (zeroOf s) = false := by rw [isNaN_eq_false_iff]; simp
@[simp] theorem isNaN_infOf (s : Bool) : isNaN (infOf s) = false := by rw [isNaN_eq_false_iff]; simp
@[simp] theorem isFinite_zeroOf (s : Bool) : isFinite (zeroOf s) = true := isFinite_of_unpack (unpack_zeroOf s)
@[simp] theorem isFinite_infOf (s : Bool) : isFinite (infOf s) = false :=
  isFinite_eq_false_of_unpack fun _ _ _ => by simp
@[simp] theorem infOf_inj (s t : Bool) : infOf s = infOf t ↔ s = t := by revert s t; decide

@[simp] theorem isNaN_roundToF64 (neg : Bool) (m : Nat) (e : Int) : isNaN (roundToF64 neg m e) = false :=
  (isNaN_eq_false_iff _).2 (unpack_roundToF64_ne_nan neg m e)

theorem ne_infOf_of_unpack {a : F64} {s : Bool} {m e : Nat} (h : unpack a = .fin s m e) (t : Bool) : a ≠ infOf t := by
  rintro rfl
  simp at h

/-! The value of a pattern -/

theorem units_fin {a : F64} {s : Bool} {m e : Nat} (h : unpack a = .fin s m e) :
    units a = some (signed s (m * 2 ^ e)) := by
  rw [units, h]

theorem toRat_of_units {a : F64} {z : Int} (h : units a = some z) : toRat a = (z : ℚ) / 2 ^ 1074 := by
  rw [toRat, h]

theorem floor_div_two_pow (z : Int) (k : Nat) : ⌊(z : ℚ) / 2 ^ k⌋ = z / 2 ^ k := by
  exact_mod_cast Rat.floor_intCast_div_natCast z (2 ^ k)

theorem floor_toRat {a : F64} {z : Int} (h : units a = some z) : ⌊toRat a⌋ = floorUnits z := by
  rw [toRat_of_units h, floor_div_two_pow, floorUnits]

theorem units_nonfinite {a : F64} (h : isFinite a = false) : units a = none := by
  cases hu : unpack a with
  | nan => rw [units, hu]
  | inf s => rw [units, hu]
  | fin s m e =>
    rw [isFinite_of_unpack hu] at h
    cases h

theorem toRat_nonfinite {a : F64} (h : isFinite a = false) : toRat a = 0 := by
  rw [toRat, units_nonfinite h]

theorem abs_toRat_fin {a : F64} {s : Bool} {m e : Nat} (h : unpack a = .fin s m e) :
    |toRat a| = (m : ℚ) * 2 ^ e / 2 ^ 1074 := by
  rw [toRat_fin h, abs_mul, abs_signQ, one_mul, abs_of_nonneg (by positivity)]

/-! Signed magnitudes -/

theorem cast_signed (s : Bool) (m : Nat) : (signed s m : ℚ) = signQ s * m := by
  cases s <;> simp [signed, signQ]

theorem signed_mul (s : Bool) (m n : Nat) : signed s (m * n) = signed s m * n := by
  cases s <;> simp [signed]

@[simp] theorem natAbs_signed (s : Bool) (m : Nat) : (signed s m).natAbs = m := by
  cases s <;> simp [signed]

theorem signed_neg_iff (s : Bool) {m : Nat} (hm : 0 < m) : signed s m < 0 ↔ s = true := by
  cases s with
  | false => simp [signed]
  | true => simpa [signed] using hm

theorem signed_natAbs (z : Int) : signed (decide (z < 0)) z.natAbs = z := by
  by_cases hz : z < 0
  · rw [decide_eq_true hz, signed, if_pos rfl]
    omega
  · rw [decide_eq_false hz, signed, if_neg Bool.false_ne_true]
    omega

theorem signed_div_two_pow (s : Bool) (m k j : Nat) :
    (signed s (m * 2 ^ (k + j)) : ℚ) / 2 ^ k = (signed s (m * 2 ^ j) : ℤ) := by
  rw [cast_signed, cast_signed, div_eq_iff (by positivity), pow_add]
  push_cast
  ring

/-! The size of a value and the place of its last bit -/

/-- A value of magnitude `2^(52 + k)` or more has its last place at `2^k` or above. -/
theorem exp_of_le_abs {a : F64} {s : Bool} {m e k : Nat} (h : unpack a = .fin s m e)
    (hk : (2 : ℚ) ^ (52 + k) ≤ |toRat a|) : 1074 + k ≤ e := by
  obtain ⟨⟨hm, -, -⟩, -⟩ := finite_of_unpack h
  by_contra hlt
  have hm' : (m : ℚ) < 2 ^ 53 := by exact_mod_cast hm
  rw [abs_toRat_fin h, le_div_iff₀ (by positivity)] at hk
  have : (m : ℚ) * 2 ^ e < 2 ^ (52 + k) * 2 ^ 1074 :=
    calc (m : ℚ) * 2 ^ e < 2 ^ 53 * 2 ^ e := mul_lt_mul_of_pos_right hm' (by positivity)
      _ = 2 ^ (53 + e) := (pow_add _ _ _).symm
      _ ≤ 2 ^ (52 + k + 1074) := pow_le_pow_right₀ (by norm_num) (by omega)
      _ = 2 ^ (52 + k) * 2 ^ 1074 := pow_add _ _ _
  exact absurd hk this.not_ge

/-- A value whose last place is at one or above is an integer. -/
theorem toRat_fin_integral {a : F64} {s : Bool} {m j : Nat} (h : unpack a = .fin s m (1074 + j)) :
    toRat a = (signed s (m * 2 ^ j) : ℤ) := by
  rw [toRat_of_units (units_fin h), signed_div_two_pow]

/-- An integral value of magnitude `2^(52 + k)` or more is a multiple of `2^k`. -/
theorem two_pow_dvd_of_le_abs {a : F64} {I : ℤ} {k : Nat} (ha : isFinite a = true) (hI : toRat a = I)
    (hk : 2 ^ (52 + k) ≤ |I|) : (2 : ℤ) ^ k ∣ I := by
  obtain ⟨s, m, e, hu⟩ := (isFinite_iff a).1 ha
  have hbig : (2 : ℚ) ^ (52 + k) ≤ |toRat a| := by
    rw [hI]
    exact_mod_cast hk
  obtain ⟨j, rfl⟩ := Nat.exists_eq_add_of_le (exp_of_le_abs hu hbig)
  rw [add_assoc] at hu
  have hval : I = signed s (m * 2 ^ (k + j)) := by exact_mod_cast hI.symm.trans (toRat_fin_integral hu)
  refine ⟨signed s m * 2 ^ j, ?_⟩
  rw [hval, signed_mul, pow_add]
  push_cast
  ring

/-! Exact results of the rounding -/

/-- A whole number below 2^53 of units `2^e` within the range is not changed by the rounding. -/
theorem unpack_roundToF64_exact (neg : Bool) {m e : Nat} (hpos : 0 < m) (hm : m < 2 ^ 53) (he : e ≤ 2045) :
    ∃ M E, unpack (roundToF64 neg m e) = .fin neg M E ∧ M * 2 ^ E = m * 2 ^ e := by
  obtain ⟨E, sig, hnear, -, hhigh, hlow, hres⟩ := roundToF64_cases neg hpos (e : Int)
  have hm' : (m : ℚ) < 2 ^ 53 := by exact_mod_cast hm
  have hE : E ≤ e := by
    rcases hlow with rfl | hlow
    · exact Nat.zero_le e
    · by_contra hlt
      have hhalf : (2 : ℚ) ^ ((e : ℤ) - E) ≤ 2 ^ (-1 : ℤ) := zpow_le_zpow_right₀ (by norm_num) (by omega)
      have : (m : ℚ) * 2 ^ ((e : ℤ) - E) < 2 ^ 53 * 2 ^ (-1 : ℤ) :=
        mul_lt_mul hm' hhalf (by positivity) (by norm_num)
      norm_num at this hlow
      linarith
  obtain ⟨j, rfl⟩ := Nat.exists_eq_add_of_le hE
  have hj : (m : ℚ) * 2 ^ (((E + j : Nat) : ℤ) - E) = ((m * 2 ^ j : Nat) : ℚ) := by
    rw [show ((E + j : Nat) : ℤ) - E = (j : ℤ) by omega, zpow_natCast]
    push_cast
    rfl
  rw [hj] at hnear hhigh hlow
  obtain rfl : sig = m * 2 ^ j := by
    have habs : |(sig : ℤ) - (m * 2 ^ j : Nat)| < 1 := by
      have : |(sig : ℚ) - (m * 2 ^ j : Nat)| < 1 := by linarith
      exact_mod_cast this
    have := Int.abs_lt_one_iff.1 habs
    omega
  have hhigh' : m * 2 ^ j < 2 ^ 53 := by exact_mod_cast hhigh
  have hlow' : E = 0 ∨ 2 ^ 52 ≤ m * 2 ^ j := hlow.imp_right fun h => by exact_mod_cast h
  refine ⟨m * 2 ^ j, E, ?_, by ring⟩
  rw [hres, if_neg (by omega)]
  exact unpack_finite neg ⟨hhigh', by omega, by omega⟩

/-- The rounding keeps such a number's value; zero included. -/
theorem toRat_roundToF64_exact (neg : Bool) {m e : Nat} (hm : m < 2 ^ 53) (he : e ≤ 2045) :
    isFinite (roundToF64 neg m e) = true ∧ toRat (roundToF64 neg m e) = signQ neg * ((m : ℚ) * 2 ^ e / 2 ^ 1074) := by
  rcases Nat.eq_zero_or_pos m with rfl | hpos
  · rw [roundToF64, if_pos rfl]
    exact ⟨isFinite_zeroOf neg, by rw [toRat_fin (unpack_zeroOf neg)]; simp⟩
  · obtain ⟨M, E, hu, hval⟩ := unpack_roundToF64_exact neg hpos hm he
    refine ⟨isFinite_of_unpack hu, ?_⟩
    rw [toRat_fin hu]
    congr 2
    exact_mod_cast hval

/-! `fneg` (R18) -/

theorem getLsbD_withSign (neg : Bool) {mag : Nat} (h : mag < 2 ^ 63) {i : Nat} (hi : i < 64) :
    (withSign neg mag).getLsbD i = if i = 63 then neg else mag.testBit i := by
  have h63 : mag.testBit 63 = false := Nat.testBit_lt_two_pow h
  rw [BitVec.getLsbD, toNat_withSign neg h]
  cases neg with
  | false => by_cases hi63 : i = 63 <;> simp [hi63, h63]
  | true =>
    rw [if_pos rfl]
    by_cases hi63 : i = 63
    · rw [hi63, Nat.testBit_two_pow_add_eq, h63, if_pos rfl]
      rfl
    · rw [if_neg hi63, Nat.testBit_two_pow_add_gt (by omega)]

theorem withSign_xor_signBit (neg : Bool) {mag : Nat} (h : mag < 2 ^ 63) :
    withSign neg mag ^^^ 0x8000000000000000#64 = withSign (!neg) mag := by
  have hbit : ∀ i < 64, (0x8000000000000000#64).getLsbD i = decide (i = 63) := by decide
  apply BitVec.eq_of_getLsbD_eq
  intro i hi
  rw [BitVec.getLsbD_xor, getLsbD_withSign neg h hi, getLsbD_withSign (!neg) h hi, hbit i hi]
  by_cases hi63 : i = 63 <;> simp [hi63]

theorem fneg_nan {a : F64} (h : unpack a = .nan) : fneg a = canonNaN := by
  rw [fneg, if_pos ((isNaN_iff a).2 h)]

theorem fneg_eq_xor {a : F64} (h : isNaN a = false) : fneg a = a ^^^ 0x8000000000000000#64 := by
  rw [fneg, h]
  rfl

theorem unpack_fneg_fin {a : F64} {s : Bool} {m e : Nat} (h : unpack a = .fin s m e) :
    unpack (fneg a) = .fin (!s) m e := by
  obtain ⟨hr, ha⟩ := finite_of_unpack h
  have hmag : e * 2 ^ 52 + m < 2 ^ 63 := by
    obtain ⟨hm, he, -⟩ := hr
    omega
  rw [fneg_eq_xor ((isNaN_eq_false_iff a).2 (by simp [h])), ha, withSign_xor_signBit s hmag]
  exact unpack_finite (!s) hr

@[simp] theorem fneg_infOf (s : Bool) : fneg (infOf s) = infOf (!s) := by cases s <;> decide

/-- Settles O30: a finite value goes to the one with the other sign, an infinity to the other infinity. -/
theorem negationFlipsTheSign : Obligations.NegationFlipsTheSign := by
  unfold Obligations.NegationFlipsTheSign
  refine ⟨fun a ha => ⟨fneg_eq_xor ha, ?_⟩, by decide⟩
  cases hu : unpack a with
  | nan => exact absurd hu ((isNaN_eq_false_iff a).1 ha)
  | inf s =>
    obtain rfl := eq_infOf hu
    simp [toRat_nonfinite]
  | fin s m e =>
    have hn := unpack_fneg_fin hu
    rw [isFinite_of_unpack hn, isFinite_of_unpack hu, toRat_fin hn, toRat_fin hu]
    cases s <;> simp [signQ]

/-! The comparison (R19) -/

theorem flt_nan_left {a : F64} (h : unpack a = .nan) (b : F64) : flt a b = false := by
  rw [flt, h]

theorem flt_nan_right (a : F64) {b : F64} (h : unpack b = .nan) : flt a b = false := by
  rw [flt, h]
  cases unpack a <;> rfl

theorem flt_infOf_infOf (s t : Bool) : flt (infOf s) (infOf t) = (s && !t) := by
  rw [flt, unpack_infOf, unpack_infOf]

theorem flt_infOf_fin (s : Bool) {b : F64} {t : Bool} {n f : Nat} (h : unpack b = .fin t n f) : flt (infOf s) b = s := by
  rw [flt, unpack_infOf, h]

theorem flt_fin_infOf {a : F64} {s : Bool} {m e : Nat} (h : unpack a = .fin s m e) (t : Bool) :
    flt a (infOf t) = !t := by
  rw [flt, unpack_infOf, h]

theorem flt_fin {a b : F64} {s t : Bool} {m e n f : Nat} (ha : unpack a = .fin s m e) (hb : unpack b = .fin t n f) :
    flt a b = true ↔ toRat a < toRat b := by
  rw [toRat_of_units (units_fin ha), toRat_of_units (units_fin hb), div_lt_div_iff_of_pos_right (by positivity),
    Int.cast_lt, flt, ha, hb, decide_eq_true_iff]

/-- Settles O31, case by case on what the two operands stand for. -/
theorem lessThanIsTheOrderOfValues : Obligations.LessThanIsTheOrderOfValues := by
  unfold Obligations.LessThanIsTheOrderOfValues
  intro a b
  refine ⟨?_, rfl⟩
  cases ha : unpack a with
  | nan => simp [flt_nan_left ha, (isNaN_iff a).2 ha]
  | inf s =>
    obtain rfl := eq_infOf ha
    cases hb : unpack b with
    | nan => simp [flt_nan_right _ hb, (isNaN_iff b).2 hb]
    | inf t =>
      obtain rfl := eq_infOf hb
      cases s <;> cases t <;> simp [flt_infOf_infOf]
    | fin t n f => simp [flt_infOf_fin s hb, ne_infOf_of_unpack hb, isNaN_eq_false_iff, hb]
  | fin s m e =>
    have hna : isNaN a = false := (isNaN_eq_false_iff a).2 (by simp [ha])
    cases hb : unpack b with
    | nan => simp [flt_nan_right _ hb, (isNaN_iff b).2 hb]
    | inf t =>
      obtain rfl := eq_infOf hb
      simp [flt_fin_infOf ha, ne_infOf_of_unpack ha, hna]
    | fin t n f =>
      simp [flt_fin ha hb, ne_infOf_of_unpack ha, ne_infOf_of_unpack hb, isNaN_eq_false_iff, ha, hb,
        isFinite_of_unpack ha, isFinite_of_unpack hb]

/-! `ffloor` (R20) -/

theorem ffloor_nan {a : F64} (h : unpack a = .nan) : ffloor a = canonNaN := by
  rw [ffloor, h]

@[simp] theorem ffloor_infOf (s : Bool) : ffloor (infOf s) = infOf s := by
  rw [ffloor, unpack_infOf]

theorem ffloor_zero {a : F64} {s : Bool} {e : Nat} (h : unpack a = .fin s 0 e) : ffloor a = a := by
  rw [ffloor, h]
  exact if_pos rfl

theorem ffloor_eq_round {a : F64} {s : Bool} {m e : Nat} (h : unpack a = .fin s m e) (hm : m ≠ 0) :
    ffloor a = roundToF64 (decide (⌊toRat a⌋ < 0)) ⌊toRat a⌋.natAbs 1074 := by
  rw [floor_toRat (units_fin h), ffloor, h]
  exact if_neg hm

theorem ffloor_of_floor_eq {a : F64} {z : ℤ} (h : isFinite a = true) (hne : toRat a ≠ 0) (hz : ⌊toRat a⌋ = z) :
    ffloor a = roundToF64 (decide (z < 0)) z.natAbs 1074 := by
  obtain ⟨s, m, e, hu⟩ := (isFinite_iff a).1 h
  have hm : m ≠ 0 := by
    rintro rfl
    exact hne (by rw [toRat_fin hu]; simp)
  rw [ffloor_eq_round hu hm, hz]

/-- A value whose last place is at one or above is integral by size, and the floor answers its own pattern. -/
theorem ffloor_of_exp_le {a : F64} {s : Bool} {m e : Nat} (h : unpack a = .fin s m e) (he : 1074 ≤ e) :
    ffloor a = a := by
  rcases Nat.eq_zero_or_pos m with rfl | hm
  · exact ffloor_zero h
  · obtain ⟨j, rfl⟩ := Nat.exists_eq_add_of_le he
    have hsign : decide (signed s (m * 2 ^ j) < 0) = s := by simp [signed_neg_iff s (show 0 < m * 2 ^ j by positivity)]
    have hround := roundToF64_self h hm j
    rw [show ((1074 + j : Nat) : ℤ) - j = 1074 by omega] at hround
    rw [ffloor_eq_round h hm.ne', toRat_fin_integral h, Int.floor_intCast, hsign, natAbs_signed, hround]

/-- The floor is exact: from magnitude 2^52 on the operand is integral already, and below it the floor fits the
significand. -/
theorem ffloor_value {a : F64} (h : isFinite a = true) : isFinite (ffloor a) = true ∧ toRat (ffloor a) = ⌊toRat a⌋ := by
  obtain ⟨s, m, e, hu⟩ := (isFinite_iff a).1 h
  rcases Nat.lt_or_ge e 1074 with he | he
  · rcases Nat.eq_zero_or_pos m with rfl | hm
    · have h0 : toRat a = 0 := by rw [toRat_fin hu]; simp
      rw [ffloor_zero hu, h0, Int.floor_zero, Int.cast_zero]
      exact ⟨h, rfl⟩
    · have hlt : |toRat a| < 2 ^ 52 := by
        by_contra hge
        have := exp_of_le_abs (k := 0) hu (not_lt.1 hge)
        omega
      obtain ⟨hlo, hhi⟩ := abs_lt.1 hlt
      have hfits : ⌊toRat a⌋.natAbs < 2 ^ 53 := by
        have h1 : -2 ^ 52 ≤ ⌊toRat a⌋ := Int.le_floor.2 (by push_cast; exact hlo.le)
        have h2 : ⌊toRat a⌋ < 2 ^ 52 := Int.floor_lt.2 (by push_cast; exact hhi)
        omega
      obtain ⟨hfin, hval⟩ := toRat_roundToF64_exact (decide (⌊toRat a⌋ < 0)) hfits (e := 1074) (by norm_num)
      rw [mul_div_cancel_right₀ _ (by positivity), ← cast_signed, signed_natAbs] at hval
      rw [ffloor_eq_round hu hm.ne']
      exact ⟨hfin, hval⟩
  · obtain ⟨j, rfl⟩ := Nat.exists_eq_add_of_le he
    rw [ffloor_of_exp_le hu he, toRat_fin_integral hu, Int.floor_intCast]
    exact ⟨h, rfl⟩

/-- Settles O32, from the exact value of the floor and the pattern that the rounding gives it. -/
theorem floorIsExact : Obligations.FloorIsExact := by
  unfold Obligations.FloorIsExact
  refine ⟨fun a ha => ?_, fun s => ⟨ffloor_zero (unpack_zeroOf s), ffloor_infOf s⟩,
    fun a ha => ffloor_nan ((isNaN_iff a).1 ha)⟩
  obtain ⟨hfin, hval⟩ := ffloor_value ha
  refine ⟨hfin, hval, fun hlo hhi => ?_, fun hlo hhi => ?_, fun hbig => ?_⟩
  · have hfloor : ⌊toRat a⌋ = -1 := Int.floor_eq_iff.2 ⟨by push_cast; exact hlo.le, by push_cast; linarith⟩
    rw [ffloor_of_floor_eq ha hhi.ne hfloor]
    decide
  · have hfloor : ⌊toRat a⌋ = 0 := Int.floor_eq_zero_iff.2 ⟨hlo.le, hhi⟩
    rw [ffloor_of_floor_eq ha hlo.ne' hfloor]
    decide
  · obtain ⟨s, m, e, hu⟩ := (isFinite_iff a).1 ha
    exact ffloor_of_exp_le hu (exp_of_le_abs (k := 0) hu hbig)

/-! `imod256` (R13) -/

theorem imod256_nonfinite {a : F64} (h : isFinite a = false) : imod256 a = 0 := by
  rw [imod256, units_nonfinite h]

theorem imod256_nan {a : F64} (h : unpack a = .nan) : imod256 a = 0 :=
  imod256_nonfinite (isFinite_eq_false_of_unpack (by simp [h]))

theorem imod256_finite {a : F64} (h : isFinite a = true) : imod256 a = BitVec.ofInt 8 ⌊toRat a⌋ := by
  obtain ⟨s, m, e, hu⟩ := (isFinite_iff a).1 h
  apply BitVec.eq_of_toNat_eq
  rw [floor_toRat (units_fin hu), imod256, units_fin hu, BitVec.toNat_ofInt, BitVec.toNat_ofNat]
  omega

/-- Settles O33: the wrap is the low 8 bits of the floor, and from 2^61 on the value is a multiple of 256. -/
theorem wrapIsTheFlooredRemainder : Obligations.WrapIsTheFlooredRemainder := by
  unfold Obligations.WrapIsTheFlooredRemainder
  refine ⟨fun a I ha hI => ?_, by decide +kernel, by decide +kernel, fun a ha => imod256_nonfinite ha⟩
  have hwrap : imod256 a = BitVec.ofInt 8 I := by rw [imod256_finite ha, hI, Int.floor_intCast]
  refine ⟨?_, hwrap, fun hbig => ?_⟩
  · have hdiv : ⌊(I : ℚ) / 256⌋ = I / 256 := by exact_mod_cast Rat.floor_intCast_div_natCast I 256
    rw [hwrap, hdiv, BitVec.toNat_ofInt]
    omega
  · have hdvd : (2 : ℤ) ^ 8 ∣ I := two_pow_dvd_of_le_abs ha hI (le_trans (by norm_num) hbig)
    rw [hwrap]
    apply BitVec.eq_of_toNat_eq
    rw [BitVec.toNat_ofInt]
    change _ = 0
    omega

/-! `u32_to_unit` and `bit_to_f64` (R21, R22) -/

theorem u32ToUnit_value (t : U32) : isFinite (u32ToUnit t) = true ∧ toRat (u32ToUnit t) = (t.toNat : ℚ) / 2 ^ 32 := by
  have ht : t.toNat < 2 ^ 32 := t.isLt
  obtain ⟨hfin, hval⟩ := toRat_roundToF64_exact false (m := t.toNat) (e := 1042) (by omega) (by norm_num)
  refine ⟨hfin, hval.trans ?_⟩
  rw [show 1074 = 1042 + 32 from rfl, pow_add, signQ, if_neg Bool.false_ne_true, one_mul,
    mul_comm (t.toNat : ℚ), mul_div_mul_left _ _ (by positivity)]

theorem toRat_cONE : toRat cONE = 1 := by
  obtain ⟨-, hval⟩ := toRat_roundToF64_exact false (m := 1) (e := 1074) (by norm_num) (by norm_num)
  rw [show roundToF64 false 1 (1074 : Nat) = cONE by decide] at hval
  rw [hval, mul_div_cancel_right₀ _ (by positivity), signQ]
  norm_num

/-- Settles O21: a u32 fits the significand, so the one rounding is exact. -/
theorem unitIsExact : Obligations.UnitIsExact := by
  unfold Obligations.UnitIsExact
  refine ⟨fun t => ?_, by decide⟩
  obtain ⟨hfin, hval⟩ := u32ToUnit_value t
  have hle : toRat (u32ToUnit t) ≤ 1 - 1 / 2 ^ 32 := by
    have ht : (t.toNat : ℚ) + 1 ≤ 2 ^ 32 := by exact_mod_cast t.isLt
    rw [hval]
    linarith
  refine ⟨hfin, hval, by rw [hval]; positivity, hle, fun h => ?_⟩
  rw [h, toRat_cONE] at hle
  norm_num at hle

theorem isNaN_bitToF64 (b : Bool) : isNaN (bitToF64 b) = false := by cases b <;> decide

/-! NaN results and NaN operands (R17) -/

theorem fadd_infOf_infOf (s t : Bool) : fadd (infOf s) (infOf t) = if s = t then infOf s else canonNaN := by
  rw [fadd, unpack_infOf, unpack_infOf]

theorem fadd_infOf_fin (s : Bool) {b : F64} {t : Bool} {n f : Nat} (h : unpack b = .fin t n f) :
    fadd (infOf s) b = infOf s := by
  rw [fadd, unpack_infOf, h]

theorem fadd_fin_infOf {a : F64} {s : Bool} {m e : Nat} (h : unpack a = .fin s m e) (t : Bool) :
    fadd a (infOf t) = infOf t := by
  rw [fadd, unpack_infOf, h]

theorem fmul_infOf_infOf (s t : Bool) : fmul (infOf s) (infOf t) = infOf (s ^^ t) := by
  rw [fmul, unpack_infOf, unpack_infOf]

theorem fmul_infOf_fin (s : Bool) {b : F64} {t : Bool} {n f : Nat} (h : unpack b = .fin t n f) :
    fmul (infOf s) b = if n = 0 then canonNaN else infOf (s ^^ t) := by
  rw [fmul, unpack_infOf, h]

theorem fmul_fin_infOf {a : F64} {s : Bool} {m e : Nat} (h : unpack a = .fin s m e) (t : Bool) :
    fmul a (infOf t) = if m = 0 then canonNaN else infOf (s ^^ t) := by
  rw [fmul, unpack_infOf, h]

theorem fsub_nan_left {a : F64} (h : unpack a = .nan) (b : F64) : fsub a b = canonNaN := fadd_nan_left h (fneg b)

theorem fsub_nan_right (a : F64) {b : F64} (h : unpack b = .nan) : fsub a b = canonNaN :=
  fadd_nan_right a (by rw [fneg_nan h, unpack_canonNaN])

/-- A sum is the canonical NaN or no NaN, by the kinds of its operands. -/
theorem fadd_eq_canonNaN (a b : F64) (h : isNaN (fadd a b) = true) : fadd a b = canonNaN := by
  cases ha : unpack a with
  | nan => exact fadd_nan_left ha b
  | inf s =>
    obtain rfl := eq_infOf ha
    cases hb : unpack b with
    | nan => exact fadd_nan_right _ hb
    | inf t =>
      obtain rfl := eq_infOf hb
      rw [fadd_infOf_infOf] at h ⊢
      split_ifs at h ⊢ <;> simp_all
    | fin t n f => simp [fadd_infOf_fin s hb] at h
  | fin s m e =>
    cases hb : unpack b with
    | nan => exact fadd_nan_right _ hb
    | inf t =>
      obtain rfl := eq_infOf hb
      simp [fadd_fin_infOf ha] at h
    | fin t n f =>
      rw [fadd_fin ha hb] at h
      split_ifs at h <;> simp at h

theorem fsub_eq_canonNaN (a b : F64) (h : isNaN (fsub a b) = true) : fsub a b = canonNaN := fadd_eq_canonNaN a (fneg b) h

/-- A product likewise. -/
theorem fmul_eq_canonNaN (a b : F64) (h : isNaN (fmul a b) = true) : fmul a b = canonNaN := by
  cases ha : unpack a with
  | nan => exact fmul_nan_left ha b
  | inf s =>
    obtain rfl := eq_infOf ha
    cases hb : unpack b with
    | nan => exact fmul_nan_right _ hb
    | inf t =>
      obtain rfl := eq_infOf hb
      simp [fmul_infOf_infOf] at h
    | fin t n f =>
      rw [fmul_infOf_fin s hb] at h ⊢
      split_ifs at h ⊢ <;> simp_all
  | fin s m e =>
    cases hb : unpack b with
    | nan => exact fmul_nan_right _ hb
    | inf t =>
      obtain rfl := eq_infOf hb
      rw [fmul_fin_infOf ha] at h ⊢
      split_ifs at h ⊢ <;> simp_all
    | fin t n f => simp [fmul_fin ha hb] at h

theorem fneg_eq_canonNaN (a : F64) (h : isNaN (fneg a) = true) : fneg a = canonNaN := by
  cases hu : unpack a with
  | nan => exact fneg_nan hu
  | inf s =>
    obtain rfl := eq_infOf hu
    simp at h
  | fin s m e => simp [isNaN_iff, unpack_fneg_fin hu] at h

theorem ffloor_eq_canonNaN (a : F64) (h : isNaN (ffloor a) = true) : ffloor a = canonNaN := by
  cases hu : unpack a with
  | nan => exact ffloor_nan hu
  | inf s =>
    obtain rfl := eq_infOf hu
    simp at h
  | fin s m e =>
    obtain ⟨t, n, f, hfloor⟩ := (isFinite_iff _).1 (ffloor_value (isFinite_of_unpack hu)).1
    simp [isNaN_iff, hfloor] at h

/-- Settles O29: a NaN comes out only where the canonical one is written, and a NaN operand decides every primitive. -/
theorem nanIsCanonicalAndAlike : Obligations.NaNIsCanonicalAndAlike := by
  unfold Obligations.NaNIsCanonicalAndAlike
  refine ⟨fun a b => ⟨fadd_eq_canonNaN a b, fsub_eq_canonNaN a b, fmul_eq_canonNaN a b, fneg_eq_canonNaN a, ffloor_eq_canonNaN a⟩,
    fun t => isNaN_roundToF64 _ _ _, isNaN_bitToF64, fun a c b ha hc => ?_⟩
  rw [isNaN_iff] at ha hc
  simp [fadd_nan_left, fadd_nan_right, fsub_nan_left, fsub_nan_right, fmul_nan_left, fmul_nan_right, fneg_nan,
    ffloor_nan, flt_nan_left, flt_nan_right, imod256_nan, ha, hc]

/-! The integer primitives (R10 to R12) -/

/-- Settles O18: each primitive is the word operation that its rule names. -/
theorem integerPrimitives : Obligations.IntegerPrimitives := by
  unfold Obligations.IntegerPrimitives
  refine ⟨fun a b => ⟨BitVec.toNat_add a b, BitVec.toNat_mul a b⟩, fun a n _ _ => ?_, fun a b k => BitVec.getLsbD_xor,
    fun k => ⟨rfl, (BitVec.toNat_ofNat k 8).symm⟩, toNat_mod12⟩
  rw [shr32, BitVec.toNat_ushiftRight, Nat.shiftRight_eq_div_pow]

end Sys2Proof.Machine
end

section
/-! The reset tables (R53, R231) and what the fill leaves: the ROM of vector V20 is the build of seed 0, and both forms
of reset, like every SEED, leave tables filled from an array of the 256 bytes, each once. -/

namespace Sys2Proof.Machine

/-- A table entry after the whole fill (R140). -/
theorem read_fillTables (f : Nat → BitVec 8) {tb : Tables} (hwf : tb.wf = true) {n : Nat} (hn : n < 512) :
    readPerm (fillTables f tb Config.tblN) n = f (n % 256) ∧
      readPm12 (fillTables f tb Config.tblN) n = mod12 (f (n % 256)) := by
  have hn' : n < Config.tblN := hn
  rw [readPerm_fillTables f hwf le_rfl, readPm12_fillTables f hwf le_rfl, if_pos hn', if_pos hn']
  exact ⟨rfl, rfl⟩

/-- What SEED leaves, with its whole frame (R135). -/
theorem completeSeed_eq (b : Shuffle) (s : State) :
    completeSeed b s = { s with
      tables := fillTables (fun k => b.p.getD k 0) s.tables Config.tblN, rngState := b.prng.a, rngRaw := b.prng.t,
      status := { s.status with seeded := true } } := rfl

/-- SEED leaves tables that satisfy the invariants (R49). -/
theorem tablesInv_completeSeed (seed raw : U32) {s : State} (hwf : s.tables.wf = true) :
    TablesInv (completeSeed (buildPermutation seed raw) s).tables :=
  tablesInv_fillTables (length_buildPermutation seed raw) (nodup_buildPermutation seed raw) hwf

/-! The reset tables with `RESET_TABLE = zero_seeded` -/

/-- The build of seed 0 is the ROM of vector V20 and the reset values of the PRNG registers (R53). -/
theorem buildPermutation_zero (raw : U32) :
    buildPermutation 0 raw = { prng := { a := State.reset.rngState, t := State.reset.rngRaw }, p := resetRom } := by
  rw [buildPermutation_raw 0 raw 0]
  decide +kernel

/-- The array a build of seed 0 leaves is the ROM. -/
theorem resetRom_eq_build : resetRom = (buildPermutation 0 0).p := by rw [buildPermutation_zero]

theorem length_resetRom : resetRom.length = 256 := by
  rw [resetRom_eq_build, length_buildPermutation]

theorem nodup_resetRom : resetRom.Nodup := by
  rw [resetRom_eq_build]
  exact nodup_buildPermutation 0 0

/-- A table entry after reset is the ROM's (R53): nothing is listed, and an unlisted index reads so. -/
theorem read_reset (n : Nat) :
    readPerm State.reset.tables n = resetRom.getD (n % 256) 0 ∧
      readPm12 State.reset.tables n = mod12 (resetRom.getD (n % 256) 0) := ⟨rfl, rfl⟩

/-- Filling any tables from the ROM leaves the reset tables: the contents agree, and the form is canonical. -/
theorem fillTables_resetRom {tb : Tables} (hwf : tb.wf = true) :
    fillTables (fun k => resetRom.getD k 0) tb Config.tblN = State.reset.tables :=
  tables_ext (tables_wf_fillTables _ hwf le_rfl) tables_wf_empty
    (fun n hn => by rw [(read_fillTables _ hwf hn).1, (read_reset n).1])
    (fun n hn => by rw [(read_fillTables _ hwf hn).2, (read_reset n).2])

/-- The reset tables satisfy the invariants (R49, R53). -/
theorem tablesInv_reset : TablesInv State.reset.tables :=
  tablesInv_of_array length_resetRom nodup_resetRom tables_wf_empty fun n _ => read_reset n

/-- SEED with seed 0 leaves the reset tables and the reset PRNG registers, and sets SEEDED (R53). -/
theorem exec_seed_zero {s : State} (hwf : s.tables.wf = true) (hseed : s.seed = 0) :
    exec .seed s = .next { s with
      tables := State.reset.tables, rngState := State.reset.rngState, rngRaw := State.reset.rngRaw,
      status := { s.status with seeded := true } } := by
  have hbuild := hseed ▸ buildPermutation_zero s.rngRaw
  rw [exec_seed, hbuild, completeSeed_eq, fillTables_resetRom hwf]

/-! The reset tables with `RESET_TABLE = identity` -/

theorem getD_identityArray {k : Nat} (hk : k < 256) : identityArray.getD k 0 = BitVec.ofNat 8 k := by
  rw [List.getD_eq_getElem _ _ (by simpa using hk)]
  simp [identityArray]

theorem resetWith_identity_tables :
    (resetWith .identity).tables = fillTables (fun k => BitVec.ofNat 8 k) State.reset.tables Config.tblN := rfl

/-- A table entry after reset with `identity` (R53). -/
theorem read_resetWith_identity {n : Nat} (hn : n < 512) :
    readPerm (resetWith .identity).tables n = BitVec.ofNat 8 (n % 256) ∧
      readPm12 (resetWith .identity).tables n = mod12 (BitVec.ofNat 8 (n % 256)) :=
  read_fillTables _ tables_wf_empty hn

/-- The identity tables satisfy the invariants: they are filled from the identity array (R49, R53). -/
theorem tablesInv_resetWith_identity : TablesInv (resetWith .identity).tables := by
  have hwf : (resetWith .identity).tables.wf = true := by
    rw [resetWith_identity_tables]
    exact tables_wf_fillTables _ tables_wf_empty le_rfl
  refine tablesInv_of_array length_identityArray nodup_identityArray hwf fun n hn => ?_
  rw [getD_identityArray (Nat.mod_lt n (by omega))]
  exact read_resetWith_identity hn

/-! The statements -/

/-- Settles O11: the ROM is the build of seed 0, and equal contents in canonical form are equal tables. -/
theorem resetStateIsAsStated : Obligations.ResetStateIsAsStated := by
  unfold Obligations.ResetStateIsAsStated
  refine ⟨by decide, rfl, rfl, rfl, rfl, rfl, rfl, rfl, rfl, rfl, rfl, rfl, rfl, rfl, fun s => exec_seed_zero, rfl,
    rfl, fun n hn => ?_, tablesInv_reset, tablesInv_resetWith_identity⟩
  obtain ⟨hperm, hpm12⟩ := read_resetWith_identity hn
  refine ⟨hperm, ?_⟩
  rw [hpm12, toNat_mod12, BitVec.toNat_ofNat, Nat.mod_mod]

/-- Settles O13: both kinds of tables are filled from an array of the 256 bytes, and a byte is at most 255. -/
theorem tableInvariantsAfterResetAndSeed : Obligations.TableInvariantsAfterResetAndSeed := by
  unfold Obligations.TableInvariantsAfterResetAndSeed
  refine ⟨tablesInv_reset, fun s t hwf h => ?_, fun tb k n hk => ?_⟩
  · obtain rfl : completeSeed (buildPermutation s.seed s.rngRaw) s = t := by simpa using h
    exact tablesInv_completeSeed _ _ hwf
  · have hbyte := (readPerm tb n).isLt
    omega

end Sys2Proof.Machine
end

section
/-! Repeatability of queries (R54, R79): RESULT after NOISE or FBM is a function of the operands and the tables, and only
SEED and a write to an operand register change what that function reads. -/

namespace Sys2Proof.Machine

open Sys2Proof (Instr Reg Command)

/-! RESULT after a query -/

/-- NOISE in either form leaves its sample in RESULT (R150). -/
theorem result_of_runs_noise {i : Instr} {s t : State} (hi : i.runs .noise) (h : exec i s = .next t) :
    t.result = noise2 s.tables s.x s.y := by
  have ht := (exec_of_runs hi s).symm.trans h
  obtain rfl := Host.Outcome.next.inj ((exec_noise s).symm.trans ht)
  exact writeResult_result _ _

/-- FBM in either form leaves its total in RESULT (R180). -/
theorem result_of_runs_fbm {i : Instr} {s t : State} (hi : i.runs .fbm) (h : exec i s = .next t) :
    t.result = fbmTotal (noise2 s.tables) s.x s.y s.octaves.toNat s.amp s.freq s.pers s.lac := by
  have ht := (exec_of_runs hi s).symm.trans h
  obtain rfl := Host.Outcome.next.inj ((exec_fbm s).symm.trans ht)
  exact writeResult_result _ _

/-! What a query reads, and what leaves it as it was -/

/-- The registers a query reads: NOISE the first two, FBM all seven (R54). -/
def queryRegs : List Reg := [.x, .y, .octaves, .amp, .freq, .pers, .lac]

/-- `u` holds what a query reads as `s` does: the seven registers of `queryRegs`, and the tables. -/
structure SameQuery (s u : State) : Prop where
  x : u.x = s.x
  y : u.y = s.y
  octaves : u.octaves = s.octaves
  amp : u.amp = s.amp
  freq : u.freq = s.freq
  pers : u.pers = s.pers
  lac : u.lac = s.lac
  tables : u.tables = s.tables

theorem sameQuery_refl (s : State) : SameQuery s s := by constructor <;> rfl

theorem sameQuery_raise (f : Flag) (s : State) : SameQuery s (raise f s) := by constructor <;> rfl

/-- A query changes nothing that a later query reads (R54, R79). -/
theorem sameQuery_writeResult_noteUnseeded (v : F64) (s : State) :
    SameQuery s (writeResult v (noteUnseeded s)) := by
  constructor <;> simp

/-- A read changes nothing that a query reads, with or without its BADACCESS (R78). -/
theorem sameQuery_read (c : Bool) (f : Flag) (d : Option Data) (s : State) :
    SameQuery s { raiseIf c f s with readData := d } := by
  constructor <;> simp

/-- A write changes what a query reads only if it is to one of the seven registers. -/
theorem sameQuery_writeReg {r : Reg} (hr : r ∉ queryRegs) (d : Data) (s : State) :
    SameQuery s (writeReg r d s) := by
  cases r with
  | x | y | octaves | amp | freq | pers | lac => exact (hr (by decide)).elim
  | cmd => exact sameQuery_refl s
  | status | seed | tblAddr => constructor <;> rfl
  | result | rngState | rngRaw | tblData | id | reserved k => exact sameQuery_raise .badaccess s

/-- Every instruction that runs no SEED and writes no register a query reads leaves all that a query reads. -/
theorem exec_sameQuery {j : Instr} {s u : State} (hseed : ¬ j.runs .seed)
    (hwr : ∀ r ∈ queryRegs, ∀ d, j ≠ .wr r d) (h : exec j s = .next u) : SameQuery s u := by
  rcases exec_cases h with ⟨-, rfl⟩ | ⟨hj, -⟩ | ⟨-, rfl⟩ | ⟨-, rfl⟩ | ⟨d, -, -, rfl⟩ | ⟨r, d, hj, -, rfl⟩ | ⟨r, -, rfl⟩
  · exact sameQuery_refl _
  · exact absurd hj hseed
  · exact sameQuery_writeResult_noteUnseeded _ s
  · exact sameQuery_writeResult_noteUnseeded _ s
  · exact sameQuery_raise .illegal s
  · exact sameQuery_writeReg (fun hr => hwr r hr d hj) d s
  · exact sameQuery_read _ .badaccess _ s

/-! The statement -/

/-- Settles O50: both results are the same function of equal operands and tables, and by cases on what an instruction can
do, nothing but SEED and a write to an operand register changes these. -/
theorem queriesAreRepeatable : Obligations.QueriesAreRepeatable := by
  unfold Obligations.QueriesAreRepeatable
  refine ⟨fun i s u t v hi hx hy htb hs hu => ?_,
    fun i s u t v hi hx hy hoct hamp hfreq hpers hlac htb hs hu => ?_, fun j s u hseed hwr h => ?_⟩
  · rw [result_of_runs_noise hi hs, result_of_runs_noise hi hu, hx, hy, htb]
  · rw [result_of_runs_fbm hi hs, result_of_runs_fbm hi hu, hx, hy, hoct, hamp, hfreq, hpers, hlac, htb]
  · obtain ⟨hx, hy, hoct, hamp, hfreq, hpers, hlac, htb⟩ := exec_sameQuery hseed hwr h
    exact ⟨hx, hy, hoct, hamp, hfreq, hpers, hlac, htb⟩

end Sys2Proof.Machine
end

section
/-! The command word of a write to CMD (R104, R107, R204): the low 32 bits of the data are a command's word exactly when
their two fields are that command's, and any other data only sets ILLEGAL. -/

namespace Sys2Proof.Machine

/-! The fields of the command word -/

/-- The low 32 bits of the data are the two fields that R104 decodes, bits 63:32 playing no part. -/
theorem toNat_setWidth_eq_fields (d : Data) :
    (d.setWidth 32).toNat = 2 ^ 8 * (d.extractLsb' 8 24).toNat + (d.extractLsb' 0 8).toNat := by
  rw [BitVec.toNat_setWidth, BitVec.extractLsb'_toNat, BitVec.extractLsb'_toNat, Nat.shiftRight_eq_div_pow,
    Nat.shiftRight_zero]
  omega

theorem toNat_encodeCommand_lt (c : Command) : (encodeCommand c).toNat < 4 := by
  cases c <;> decide

/-- Data carries a command's word exactly when bits 31:8 are 0 and bits 7:0 are that command's opcode (R103, R104). -/
theorem setWidth_eq_encodeCommand_iff (d : Data) (c : Command) :
    d.setWidth 32 = encodeCommand c ↔
      d.extractLsb' 8 24 = 0#24 ∧ (d.extractLsb' 0 8).toNat = (encodeCommand c).toNat := by
  have hfields := toNat_setWidth_eq_fields d
  have hlo := (d.extractLsb' 0 8).isLt
  have hc := toNat_encodeCommand_lt c
  have hzero : (0#24).toNat = 0 := rfl
  rw [← BitVec.toNat_inj, ← BitVec.toNat_inj, hzero]
  omega

/-! What a write to CMD does -/

/-- Data with no bit of 31:8 set does what the command of its low byte does (R104). -/
theorem exec_wr_cmd_of_fields {d : Data} (hi : d.extractLsb' 8 24 = 0#24) (c : Command) (s : State)
    (lo : (d.extractLsb' 0 8).toNat = (encodeCommand c).toNat) : exec (.wr .cmd d) s = exec c.toInstr s :=
  exec_of_runs (.inr ⟨d, rfl, (setWidth_eq_encodeCommand_iff d c).2 ⟨hi, lo⟩⟩) s

/-- Data that carries no command's word only sets ILLEGAL (R107, R204). -/
theorem exec_wr_cmd_reserved {d : Data} (h : ∀ c, d.setWidth 32 ≠ encodeCommand c) (s : State) :
    exec (.wr .cmd d) s = .next { s with status := { s.status with illegal := true } } := by
  rw [exec_wr_cmd]
  rcases execCommandWord_cases (d.setWidth 32) s with ⟨c, hc, -⟩ | ⟨-, hillegal⟩
  · exact absurd hc (h c)
  · exact hillegal

/-! The statements -/

/-- Settles O4: the two fields are a command's or no command's. -/
theorem commandWordSelectsTheCommand : Obligations.CommandWordSelectsTheCommand := by
  unfold Obligations.CommandWordSelectsTheCommand
  intro s d
  refine ⟨fun hres => exec_wr_cmd_reserved (fun c hc => ?_) s, fun hi =>
    ⟨exec_wr_cmd_of_fields hi .nop s, exec_wr_cmd_of_fields hi .seed s, exec_wr_cmd_of_fields hi .noise s,
      exec_wr_cmd_of_fields hi .fbm s⟩⟩
  obtain ⟨hi, lo⟩ := (setWidth_eq_encodeCommand_iff d c).1 hc
  rcases hres with hbits | hopcode
  · exact hbits hi
  · have := toNat_encodeCommand_lt c
    omega

/-- Settles O5: a word that is none of the four is no command's, and the third example's low half is NOISE's word. -/
theorem reservedCommandWordsOnlySetIllegal : Obligations.ReservedCommandWordsOnlySetIllegal := by
  unfold Obligations.ReservedCommandWordsOnlySetIllegal
  intro s
  refine ⟨fun d hnop hseed hnoise hfbm => exec_wr_cmd_reserved (fun c => ?_) s,
    exec_wr_cmd_reserved (fun c => ?_) s, exec_wr_cmd_reserved (fun c => ?_) s,
    exec_wr_cmd_of_fields (by decide) .noise s (by decide)⟩
  · cases c with
    | nop => exact hnop
    | seed => exact hseed
    | noise => exact hnoise
    | fbm => exact hfbm
  · cases c <;> decide
  · cases c <;> decide

end Sys2Proof.Machine
end

section
/-! The generator (R121 to R123): what one call of `prng_next` leaves, the state after `n` calls, and its period. -/

namespace Sys2Proof.Machine

/-! One call -/

@[simp] theorem prngCreate_a (S : U32) (g : Prng) : (prngCreate S g).a = S := rfl

theorem prngNext_a (g : Prng) : (prngNext g).a = add32 g.a 0x9E3779B9 := rfl

/-- The output word is the mix of the state the call leaves, whatever the word was before. -/
theorem prngNext_t (g : Prng) : (prngNext g).t = prngMix (prngNext g).a := rfl

/-- A call from state 0, the example of R122. -/
theorem prngNext_zero (t : U32) : prngNext { a := 0, t := t } = { a := 0x9E3779B9, t := 0x64625032 } := by
  have hstep : add32 0 0x9E3779B9 = 0x9E3779B9 := by decide
  have hmix : prngMix 0x9E3779B9 = 0x64625032 := by decide
  rw [prngNext, hstep, hmix]

/-! `n` calls -/

/-- The state steps by the constant at each call, so `n` calls add `n` times the constant (R123). -/
theorem prngNext_iterate_a (g : Prng) (n : Nat) :
    (prngNext^[n] g).a = add32 g.a (mul32 (BitVec.ofNat 32 n) 0x9E3779B9) := by
  induction n with
  | zero => simp [add32, mul32]
  | succ k ih =>
    rw [Function.iterate_succ_apply', prngNext_a, ih]
    simp only [add32, mul32, BitVec.ofNat_add, BitVec.add_mul]
    rw [BitVec.one_mul, BitVec.add_assoc]

/-- From the first call on, the output word is a function of the state alone (R123). -/
theorem prngNext_iterate_t (g : Prng) {n : Nat} (hn : 1 ≤ n) :
    (prngNext^[n] g).t = prngMix (prngNext^[n] g).a := by
  obtain ⟨k, rfl⟩ := Nat.exists_eq_succ_of_ne_zero (Nat.ne_of_gt hn)
  rw [Function.iterate_succ_apply', prngNext_t]

/-- The constant is odd, so it has an inverse modulo 2^32, and multiplication by it loses nothing. -/
theorem mul32_step_inj (a b : U32) : mul32 a 0x9E3779B9 = mul32 b 0x9E3779B9 ↔ a = b := by
  refine ⟨fun h => ?_, fun h => by rw [h]⟩
  have hinv (c : U32) : mul32 (mul32 c 0x9E3779B9) 0x144CBC89 = c := by
    rw [mul32, mul32, BitVec.mul_assoc]
    exact BitVec.mul_one c
  rw [← hinv a, h, hinv]

theorem ofNat_eq_ofNat_iff (m n : Nat) : BitVec.ofNat 32 m = BitVec.ofNat 32 n ↔ m % 2 ^ 32 = n % 2 ^ 32 := by
  rw [← BitVec.toNat_inj, BitVec.toNat_ofNat, BitVec.toNat_ofNat]

/-- Two draw counts leave the same state exactly when they agree modulo 2^32: the period is 2^32 (R123). -/
theorem prngNext_iterate_a_eq_iff (g : Prng) (m n : Nat) :
    (prngNext^[m] g).a = (prngNext^[n] g).a ↔ m % 2 ^ 32 = n % 2 ^ 32 := by
  rw [prngNext_iterate_a, prngNext_iterate_a, add32, add32, BitVec.add_right_inj, mul32_step_inj, ofNat_eq_ofNat_iff]

/-! The statements -/

/-- Settles O19: the call is its five lines, and the example is evaluated. -/
theorem prngStep : Obligations.PrngStep := by
  unfold Obligations.PrngStep
  refine ⟨fun g => ⟨rfl, rfl⟩, fun t => ⟨prngNext_zero t, ?_⟩⟩
  rw [prngNext_zero, prngUnit]
  decide

/-- Settles O20: each call adds the constant, which is odd. -/
theorem prngStateSequence : Obligations.PrngStateSequence := by
  unfold Obligations.PrngStateSequence
  exact ⟨fun S g n => ⟨prngNext_iterate_a _ n, prngNext_iterate_t _⟩,
    fun S g => prngNext_iterate_a_eq_iff _, by decide, by decide⟩

end Sys2Proof.Machine
end

section
/-! The scaled draw (R125): a product that a binary64 value can hold is exact, and the product of the draw is one. -/

namespace Sys2Proof.Machine

/-! Exact products -/

/-- Every finite value lies below the overflow bound (R15). -/
theorem abs_toRat_lt_overflowBound {a : F64} (ha : isFinite a = true) : |toRat a| < overflowBound := by
  obtain ⟨s, m, e, hu⟩ := (isFinite_iff a).1 ha
  obtain ⟨⟨hm, he, -⟩, -⟩ := finite_of_unpack hu
  have hm' : (m : ℚ) ≤ 2 ^ 53 - 1 := by
    have : (m : ℚ) + 1 ≤ 2 ^ 53 := by exact_mod_cast hm
    linarith
  have hpow : (2 : ℚ) ^ e / 2 ^ 1074 ≤ 2 ^ 971 := by
    rw [← unitPow_2045]
    exact div_le_div_of_nonneg_right (pow_le_pow_right₀ (by norm_num) he) (by positivity)
  rw [abs_toRat_fin hu, overflowBound_eq]
  calc (m : ℚ) * 2 ^ e / 2 ^ 1074 = m * (2 ^ e / 2 ^ 1074) := mul_div_assoc _ _ _
    _ ≤ (2 ^ 53 - 1) * 2 ^ 971 := mul_le_mul hm' hpow (by positivity) (by norm_num)
    _ < 2 ^ 971 * (2 ^ 53 - 1 / 2) := by
      rw [mul_comm]
      exact mul_lt_mul_of_pos_left (by norm_num) (by positivity)

/-- Rounding a real that some finite pattern holds gives that value: no finite value is nearer to it. -/
theorem toRat_of_isRounded {q : ℚ} {r c : F64} (hr : IsRounded q r) (hc : isFinite c = true) (hq : toRat c = q) :
    isFinite r = true ∧ toRat r = q := by
  rw [IsRounded, if_pos (hq ▸ abs_toRat_lt_overflowBound hc)] at hr
  have hdist := hr.nearest c hc
  rw [hq, sub_self, abs_zero, abs_nonpos_iff, sub_eq_zero] at hdist
  exact ⟨hr.finite, hdist⟩

/-- The exact product of two finite values, as the operand of the rounding in `fmul` writes it. -/
theorem toRat_mul_fin {a b : F64} {s t : Bool} {m e n f : Nat} (ha : unpack a = .fin s m e)
    (hb : unpack b = .fin t n f) :
    toRat a * toRat b = signQ (s ^^ t) * (((m * n : Nat) : ℚ) * 2 ^ ((e : ℤ) + f - 1074) / 2 ^ 1074) := by
  have hsign : signQ s * signQ t = signQ (s ^^ t) := by cases s <;> cases t <;> norm_num [signQ]
  have hpow : (2 : ℚ) ^ ((e : ℤ) + f - 1074) = 2 ^ e * 2 ^ f / 2 ^ 1074 := by
    rw [zpow_sub₀ (by norm_num), zpow_add₀ (by norm_num)]
    norm_cast
  rw [toRat_fin ha, toRat_fin hb, ← hsign, hpow]
  generalize (2 : ℚ) ^ 1074 = unit
  push_cast
  ring

/-- `fmul` is exact where a finite pattern holds the product (R15, R16). -/
theorem fmul_exact {a b c : F64} (ha : isFinite a = true) (hb : isFinite b = true) (hc : isFinite c = true)
    (h : toRat c = toRat a * toRat b) :
    isFinite (fmul a b) = true ∧ toRat (fmul a b) = toRat a * toRat b := by
  obtain ⟨s, m, e, hua⟩ := (isFinite_iff a).1 ha
  obtain ⟨t, n, f, hub⟩ := (isFinite_iff b).1 hb
  rw [toRat_mul_fin hua hub] at h ⊢
  rw [fmul_fin hua hub]
  rcases Nat.eq_zero_or_pos (m * n) with h0 | hpos
  · rw [h0, roundToF64, if_pos rfl]
    exact ⟨isFinite_zeroOf _, by rw [toRat_fin (unpack_zeroOf _)]; simp⟩
  · exact toRat_of_isRounded (roundToF64_isRounded _ hpos _) hc h

/-! The operands and the product of the draw -/

/-- A whole number below 2^53, taken as a count of `2^-k`, is a binary64 value. -/
theorem toRat_roundToF64_div_two_pow {m k e : Nat} (hm : m < 2 ^ 53) (he : e + k = 1074) :
    isFinite (roundToF64 false m e) = true ∧ toRat (roundToF64 false m e) = (m : ℚ) / 2 ^ k := by
  obtain ⟨hfin, hval⟩ := toRat_roundToF64_exact false hm (show e ≤ 2045 by omega)
  refine ⟨hfin, hval.trans ?_⟩
  rw [← he, pow_add, signQ, if_neg Bool.false_ne_true, one_mul, mul_comm (m : ℚ), mul_div_mul_left _ _ (by positivity)]

theorem natToF64_value {n : Nat} (hn : n < 2 ^ 53) : isFinite (natToF64 n) = true ∧ toRat (natToF64 n) = n := by
  simpa [natToF64] using toRat_roundToF64_div_two_pow (k := 0) (e := 1074) hn rfl

/-- A draw times a number of up to 21 bits is exact (R125): 32 + 21 bits fit the significand. -/
theorem fmul_u32ToUnit_natToF64 (t : U32) {n : Nat} (hn : n ≤ 2 ^ 21) :
    isFinite (fmul (u32ToUnit t) (natToF64 n)) = true ∧
      toRat (fmul (u32ToUnit t) (natToF64 n)) = ((t.toNat * n : Nat) : ℚ) / 2 ^ 32 := by
  have hprod : t.toNat * n < 2 ^ 53 :=
    calc t.toNat * n ≤ t.toNat * 2 ^ 21 := Nat.mul_le_mul_left _ hn
      _ < 2 ^ 32 * 2 ^ 21 := Nat.mul_lt_mul_of_pos_right t.isLt (by positivity)
  obtain ⟨hu, huval⟩ := u32ToUnit_value t
  obtain ⟨hf, hfval⟩ := natToF64_value (show n < 2 ^ 53 by omega)
  obtain ⟨hc, hcval⟩ := toRat_roundToF64_div_two_pow (k := 32) (e := 1042) hprod rfl
  have hmul : toRat (u32ToUnit t) * toRat (natToF64 n) = ((t.toNat * n : Nat) : ℚ) / 2 ^ 32 := by
    rw [huval, hfval]
    push_cast
    ring
  rw [← hmul] at hcval ⊢
  exact fmul_exact hu hf hc hcval

/-- The integer form of the draw with its shift as a division. -/
theorem drawIndex_eq_div (i : Nat) (t : U32) : drawIndex i t = i + t.toNat * (256 - i) / 2 ^ 32 := by
  rw [drawIndex, Nat.shiftRight_eq_div_pow]

/-! The statement -/

/-- Settles O22: factor, product and floor are exact, and the floor of the product is the quotient of the integers. -/
theorem scaledDrawFormsAgree : Obligations.ScaledDrawFormsAgree := by
  unfold Obligations.ScaledDrawFormsAgree
  refine ⟨fun i t _ => ?_, by decide⟩
  obtain ⟨hprod, hval⟩ := fmul_u32ToUnit_natToF64 t (show 256 - i ≤ 2 ^ 21 by omega)
  obtain ⟨hfloor, hfloorval⟩ := ffloor_value hprod
  refine ⟨(natToF64_value (by omega)).2, hval, hfloor, ?_, drawIndex_eq_div i t⟩
  have hquot : ⌊((t.toNat * (256 - i) : Nat) : ℚ) / 2 ^ 32⌋ = ((t.toNat * (256 - i) / 2 ^ 32 : Nat) : ℤ) := by
    rw [← Int.cast_natCast, floor_div_two_pow]
    norm_cast
  rw [hfloorval, hval, hquot, drawIndex_eq_div]
  push_cast
  rfl

end Sys2Proof.Machine
end

section
/-! SEED (R135 to R142): the draws and the working array of its loop, iteration by iteration, what the fill leaves, and
that both depend on the seed alone. -/

namespace Sys2Proof.Machine

/-! The draws -/

/-- The generator's state after `n` iterations of the loop, one draw each (R138). -/
theorem shuffle_prng_a (start : Shuffle) (n : Nat) :
    (shuffle start n).prng.a = add32 start.prng.a (mul32 (BitVec.ofNat 32 n) 0x9E3779B9) := by
  rw [shuffle_prng, prngNext_iterate_a]

/-- The output word of draw `n`, a function of the starting state alone (R138). -/
theorem shuffle_prng_t (start : Shuffle) {n : Nat} (hn : 1 ≤ n) :
    (shuffle start n).prng.t = prngMix (add32 start.prng.a (mul32 (BitVec.ofNat 32 n) 0x9E3779B9)) := by
  rw [shuffle_prng, prngNext_iterate_t _ hn, prngNext_iterate_a]

theorem mul32_255_step : mul32 255 0x9E3779B9 = 0x99423F47 := by decide

/-- The PRNG state a build leaves (R141). -/
theorem buildPermutation_prng_a (S raw : U32) : (buildPermutation S raw).prng.a = add32 S 0x99423F47 := by
  rw [← mul32_255_step]
  exact shuffle_prng_a _ 255

/-- The output word a build leaves is that of the state it leaves (R141). -/
theorem buildPermutation_prng_t (S raw : U32) : (buildPermutation S raw).prng.t = prngMix (add32 S 0x99423F47) := by
  rw [← mul32_255_step]
  exact shuffle_prng_t _ (n := 255) (by decide)

/-! The working array -/

/-- The working array of SEED with seed `S` before iteration `i` of its loop (R137, R138); the one before iteration 255
is what the build leaves. -/
def workingArray (S raw : U32) (i : Nat) : List (BitVec 8) :=
  (shuffle { prng := prngCreate S { a := 0, t := raw }, p := identityArray } i).p

/-- The index drawn in iteration `i`: the scaled draw of the output word of draw `i + 1` (R138). -/
def drawnIndex (S : U32) (i : Nat) : Nat :=
  drawIndex i (prngMix (add32 S (mul32 (BitVec.ofNat 32 (i + 1)) 0x9E3779B9)))

theorem buildPermutation_p (S raw : U32) : (buildPermutation S raw).p = workingArray S raw 255 := rfl

theorem workingArray_zero (S raw : U32) : workingArray S raw 0 = identityArray := rfl

/-- Iteration `i` swaps entry `i` with the drawn one (R138, R139). -/
theorem workingArray_succ (S raw : U32) (i : Nat) :
    workingArray S raw (i + 1) = swapEntries (workingArray S raw i) i (drawnIndex S i) := by
  have hword := shuffle_prng_t { prng := prngCreate S { a := 0, t := raw }, p := identityArray } (Nat.le_add_left 1 i)
  rw [prngCreate_a] at hword
  rw [drawnIndex, ← hword]
  rfl

theorem workingArray_perm (S raw : U32) {i : Nat} (hi : i ≤ 255) : (workingArray S raw i).Perm identityArray :=
  shuffle_perm length_identityArray hi

theorem length_workingArray (S raw : U32) {i : Nat} (hi : i ≤ 255) : (workingArray S raw i).length = 256 :=
  (workingArray_perm S raw hi).length_eq.trans length_identityArray

theorem nodup_workingArray (S raw : U32) {i : Nat} (hi : i ≤ 255) : (workingArray S raw i).Nodup :=
  (workingArray_perm S raw hi).nodup_iff.2 nodup_identityArray

theorem drawnIndex_bounds (S : U32) {i : Nat} (hi : i < 255) : i ≤ drawnIndex S i ∧ drawnIndex S i ≤ 255 :=
  drawIndex_bounds (by omega) _

/-- The entries of the working array after iteration `i` (R139). -/
theorem getD_workingArray_succ (S raw : U32) {i : Nat} (hi : i < 255) (k : Nat) :
    (workingArray S raw (i + 1)).getD k 0 =
      if k = drawnIndex S i then (workingArray S raw i).getD i 0
      else if k = i then (workingArray S raw i).getD (drawnIndex S i) 0
      else (workingArray S raw i).getD k 0 := by
  have hlen := length_workingArray S raw hi.le
  obtain ⟨-, hr⟩ := drawnIndex_bounds S hi
  rw [workingArray_succ]
  exact getD_swapEntries (by omega) (by omega) k

/-- An array of 256 different bytes holds every byte at exactly one place. -/
theorem existsUnique_getD_of_nodup {p : List (BitVec 8)} (hlen : p.length = 256) (hnd : p.Nodup) (v : BitVec 8) :
    ∃! k : Nat, k < 256 ∧ p.getD k 0 = v := by
  obtain ⟨n, hn, rfl⟩ := List.getElem_of_mem (mem_of_nodup hlen hnd v)
  refine ⟨n, ⟨by omega, List.getD_eq_getElem _ _ hn⟩, fun k ⟨hk, hkv⟩ => ?_⟩
  rw [List.getD_eq_getElem _ _ (by omega)] at hkv
  exact hnd.getElem_inj_iff.1 hkv

/-! What SEED leaves -/

theorem eq_of_exec_seed {s t : State} (h : exec .seed s = .next t) :
    t = completeSeed (buildPermutation s.seed s.rngRaw) s :=
  Host.Outcome.next.inj (h.symm.trans (exec_seed s))

/-- The tables SEED leaves are filled from the last working array (R140). -/
theorem read_completeSeed (S raw : U32) {s : State} (hwf : s.tables.wf = true) {n : Nat} (hn : n < 512) :
    readPerm (completeSeed (buildPermutation S raw) s).tables n = (workingArray S raw 255).getD (n % 256) 0 ∧
      (readPm12 (completeSeed (buildPermutation S raw) s).tables n).toNat =
        ((workingArray S raw 255).getD (n % 256) 0).toNat % 12 := by
  obtain ⟨hperm, hpm12⟩ := read_fillTables (fun k => (workingArray S raw 255).getD k 0) hwf hn
  rw [completeSeed_tables, buildPermutation_p, hperm, hpm12, toNat_mod12]
  exact ⟨rfl, rfl⟩

/-- The whole fill forgets what the tables held. -/
theorem fillTables_eq_fillTables (f : Nat → BitVec 8) {tb tc : Tables} (hb : tb.wf = true) (hc : tc.wf = true) :
    fillTables f tb Config.tblN = fillTables f tc Config.tblN :=
  tables_ext (tables_wf_fillTables f hb le_rfl) (tables_wf_fillTables f hc le_rfl)
    (fun _ hn => (read_fillTables f hb hn).1.trans (read_fillTables f hc hn).1.symm)
    (fun _ hn => (read_fillTables f hb hn).2.trans (read_fillTables f hc hn).2.symm)

/-! The statements -/

/-- Settles O23: the arrays are the loop's working arrays, permutations all, each one swap away from the one before it;
the tables are filled from the last, and the rest is the frame of `completeSeed`. -/
theorem seedShufflesAndFills : Obligations.SeedShufflesAndFills := by
  unfold Obligations.SeedShufflesAndFills
  intro s hwf
  refine ⟨fun i k => (workingArray s.seed s.rngRaw i).getD k 0, completeSeed (buildPermutation s.seed s.rngRaw) s,
    exec_seed s, ?frame, fun k hk => getD_identityArray hk, fun i hi => ?swap, fun i hi =>
    existsUnique_getD_of_nodup (length_workingArray _ _ hi) (nodup_workingArray _ _ hi), fun k hk => ?fill,
    tablesInv_completeSeed _ _ hwf⟩
  case frame =>
    rw [completeSeed_eq, buildPermutation_prng_a, buildPermutation_prng_t]
    rfl
  case swap =>
    intro draw r
    have hr : drawnIndex s.seed i = r := drawIndex_eq_div i draw
    obtain ⟨hlo, hhi⟩ := drawnIndex_bounds s.seed hi
    have hswap := getD_workingArray_succ s.seed s.rngRaw hi
    rw [hr] at hlo hhi hswap
    refine ⟨hlo, hhi, ?_, ?_, fun k _ hki hkr => ?_⟩
    · rcases eq_or_ne i r with hir | hir
      · exact (hswap i).trans (by rw [if_pos hir, ← hir])
      · exact (hswap i).trans ((if_neg hir).trans (if_pos rfl))
    · exact (hswap r).trans (if_pos rfl)
    · exact (hswap k).trans (by rw [if_neg hkr, if_neg hki])
  case fill =>
    obtain ⟨hperm, hpm12⟩ := read_completeSeed s.seed s.rngRaw hwf (show k < 512 by omega)
    obtain ⟨hperm', hpm12'⟩ := read_completeSeed s.seed s.rngRaw hwf (show k + 256 < 512 by omega)
    rw [Nat.mod_eq_of_lt hk] at hperm hpm12
    rw [Nat.add_mod_right, Nat.mod_eq_of_lt hk] at hperm' hpm12'
    exact ⟨hperm, hperm', hpm12, hpm12'⟩

/-- Settles O24: 255 draws add 255 times the constant, and the output word is the mix of the state so reached. -/
theorem seedLeavesThePrngRegisters : Obligations.SeedLeavesThePrngRegisters := by
  unfold Obligations.SeedLeavesThePrngRegisters
  have registers {s t : State} (h : exec .seed s = .next t) :
      t.rngState = add32 s.seed 0x99423F47 ∧ t.rngRaw = prngMix (add32 s.seed 0x99423F47) := by
    rw [eq_of_exec_seed h]
    exact ⟨buildPermutation_prng_a _ _, buildPermutation_prng_t _ _⟩
  refine ⟨mul32_255_step, fun s t h => ⟨(registers h).1, ?_⟩, fun s t h hseed => ?_, fun s t h hseed => ?_⟩
  · rw [eq_of_exec_seed h, completeSeed_rngRaw]
    exact congrArg Prng.t (shuffle_prng _ 255)
  · obtain ⟨hstate, hraw⟩ := registers h
    rw [hstate, hraw, hseed]
    decide
  · obtain ⟨hstate, hraw⟩ := registers h
    rw [hstate, hraw, hseed]
    decide

/-- Settles O25: equal seeds build equal arrays, whatever RNG_RAW held, and the fill forgets what the tables held. -/
theorem sameSeedSameTables : Obligations.SameSeedSameTables := by
  unfold Obligations.SameSeedSameTables
  intro s s' t t' hwf hwf' hseed h h'
  rw [eq_of_exec_seed h, eq_of_exec_seed h', ← hseed, buildPermutation_raw s.seed s'.rngRaw s.rngRaw]
  exact fillTables_eq_fillTables _ hwf hwf'

end Sys2Proof.Machine
end

section
/-! The kernel of NOISE (R151 to R167): what each gradient index selects, the kernel as one dataflow, the two readings of
the hash, and the points at which an offset of the origin is a NaN, which the sample then is too. -/

namespace Sys2Proof.Machine

/-! The gradient dot (R161 to R163), by the three ranges of the index -/

/-- The second addend of an axis gradient: a zero whose sign is bit 1 of the index. -/
theorem ite_fneg_cZERO (b : Bool) : (if b then fneg cZERO else cZERO) = zeroOf b := by
  cases b <;> decide

theorem dot_diagonal {h : BitVec 4} (hh : h.toNat < 4) (x y : F64) :
    dot h x y = fadd (if h.getLsbD 0 then fneg x else x) (if h.getLsbD 1 then fneg y else y) := by
  have h8 : h.toNat < 8 := by omega
  simp only [dot, if_pos hh, if_pos h8]

theorem dot_xAxis {h : BitVec 4} (h4 : 4 ≤ h.toNat) (h8 : h.toNat < 8) (x y : F64) :
    dot h x y = fadd (if h.getLsbD 0 then fneg x else x) (zeroOf (h.getLsbD 1)) := by
  simp only [dot, if_neg (not_lt.2 h4), if_pos h8, ite_fneg_cZERO]

theorem dot_yAxis {h : BitVec 4} (h8 : 8 ≤ h.toNat) (x y : F64) :
    dot h x y = fadd (if h.getLsbD 0 then fneg y else y) (zeroOf (h.getLsbD 1)) := by
  have h4 : ¬ h.toNat < 4 := by omega
  simp only [dot, if_neg h4, if_neg (not_lt.2 h8), ite_fneg_cZERO]

/-- From 8 on, bit 2 of the index has no effect: 12 to 15 act as 8 to 11. -/
theorem dot_yAxis_congr {h k : BitVec 4} (hh : 8 ≤ h.toNat) (hk : 8 ≤ k.toNat)
    (h0 : h.getLsbD 0 = k.getLsbD 0) (h1 : h.getLsbD 1 = k.getLsbD 1) (x y : F64) : dot h x y = dot k x y := by
  rw [dot_yAxis hh, dot_yAxis hk, h0, h1]

/-- Settles O39: each index by its range and its two low bits. -/
theorem gradientTable : Obligations.GradientTable := by
  unfold Obligations.GradientTable
  refine ⟨fun x y => ⟨dot_diagonal (by decide) x y, dot_diagonal (by decide) x y, dot_diagonal (by decide) x y,
    dot_diagonal (by decide) x y, dot_xAxis (by decide) (by decide) x y, dot_xAxis (by decide) (by decide) x y,
    dot_xAxis (by decide) (by decide) x y, dot_xAxis (by decide) (by decide) x y, dot_yAxis (by decide) x y,
    dot_yAxis (by decide) x y, dot_yAxis (by decide) x y, dot_yAxis (by decide) x y, ?_, ?_, ?_, ?_⟩,
    by decide +kernel⟩
  all_goals exact dot_yAxis_congr (by decide) (by decide) rfl rfl x y

/-! The kernel, flat (R151) -/

/-- Settles O37: the model keeps the middle corner as two flags, the rule as two numbers 0 or 1; the rest is the same
lines. -/
theorem kernelIsAsWritten : Obligations.KernelIsAsWritten := by
  unfold Obligations.KernelIsAsWritten
  have first (c : Bool) : (if c then 1 else 0 : Nat) = c.toNat := by cases c <;> rfl
  have second (c : Bool) : (if c then 0 else 1 : Nat) = (!c).toNat := by cases c <;> rfl
  have flag (c : Bool) : decide (c.toNat = 1) = c := by cases c <;> rfl
  intro tb x y
  simp only [first, second, flag]
  rfl

/-! The hash under the table invariants (R158, R159) -/

theorem readPerm_mod {tb : Tables} (h : TablesInv tb) {n : Nat} (hn : n < 512) :
    readPerm tb (n % 256) = readPerm tb n := by
  rcases Nat.lt_or_ge n 256 with hlt | hge
  · rw [Nat.mod_eq_of_lt hlt]
  · have hdup := h.dupPerm (n % 256) (Nat.mod_lt n (by omega))
    rwa [show n % 256 + 256 = n by omega] at hdup

/-- The PM12 index of a corner, with its lattice part reduced modulo 256 and not: `m` is at most 255 + 1. -/
theorem readPm12_mod_add {tb : Tables} (h : TablesInv tb) {m v : Nat} (hm : m ≤ 256) (hv : v < 256) :
    readPm12 tb (m % 256 + v) = readPm12 tb (m + v) := by
  rcases Nat.lt_or_eq_of_le hm with hlt | rfl
  · rw [Nat.mod_eq_of_lt hlt]
  · rw [Nat.mod_self, Nat.zero_add, Nat.add_comm 256 v, h.dupPm12 v hv]

/-- Settles O44: both indices pass 255 at most by the one that the corner offset adds, where the tables repeat. -/
theorem wrapFirstEqualsAddFirst : Obligations.WrapFirstEqualsAddFirst := by
  unfold Obligations.WrapFirstEqualsAddFirst
  intro tb h
  refine ⟨fun ii jj di dj hdi hdj => ?_, (h.dupPerm 0 (by omega)).symm, fun v hv => ?_⟩
  · have hii := ii.isLt
    have hjj := jj.isLt
    rw [hashCorner, readPerm_mod h (by omega), readPm12_mod_add h (by omega) (readPerm tb _).isLt]
  · rw [Nat.add_comm 256 v, h.dupPm12 v (by omega)]

/-! Which operands a finite result has -/

/-- A pattern that is not finite is a NaN or an infinity. -/
theorem nonfinite_cases {a : F64} (h : isFinite a = false) : unpack a = .nan ∨ ∃ s, a = infOf s := by
  cases hu : unpack a with
  | nan => exact .inl rfl
  | inf s => exact .inr ⟨s, eq_infOf hu⟩
  | fin s m e => simp [isFinite_of_unpack hu] at h

@[simp] theorem isFinite_canonNaN : isFinite canonNaN = false := by decide

/-- An addend that is not finite is the sum, unless the sum is a NaN. -/
theorem fadd_nonfinite_left {a : F64} (h : isFinite a = false) (b : F64) : fadd a b = a ∨ fadd a b = canonNaN := by
  rcases nonfinite_cases h with ha | ⟨s, rfl⟩
  · exact .inr (fadd_nan_left ha b)
  · cases hb : unpack b with
    | nan => exact .inr (fadd_nan_right _ hb)
    | inf t =>
      rw [eq_infOf hb, fadd_infOf_infOf]
      exact ite_eq_or_eq _ _ _
    | fin t n f => exact .inl (fadd_infOf_fin s hb)

theorem fadd_nonfinite_right (a : F64) {b : F64} (h : isFinite b = false) : fadd a b = b ∨ fadd a b = canonNaN := by
  rcases nonfinite_cases h with hb | ⟨t, rfl⟩
  · exact .inr (fadd_nan_right a hb)
  · cases ha : unpack a with
    | nan => exact .inr (fadd_nan_left ha _)
    | inf s =>
      rw [eq_infOf ha, fadd_infOf_infOf]
      split_ifs with hst
      · exact .inl (by rw [hst])
      · exact .inr rfl
    | fin s m e => exact .inl (fadd_fin_infOf ha t)

theorem isFinite_fadd_nonfinite_left {a : F64} (h : isFinite a = false) (b : F64) : isFinite (fadd a b) = false := by
  rcases fadd_nonfinite_left h b with hs | hs <;> simp [hs, h]

theorem isFinite_fadd_nonfinite_right (a : F64) {b : F64} (h : isFinite b = false) : isFinite (fadd a b) = false := by
  rcases fadd_nonfinite_right a h with hs | hs <;> simp [hs, h]

theorem isFinite_ffloor (a : F64) : isFinite (ffloor a) = isFinite a := by
  cases h : isFinite a with
  | true => exact (ffloor_value h).1
  | false => rcases nonfinite_cases h with ha | ⟨s, rfl⟩ <;> simp [ffloor_nan, *]

/-- A factor that is positive and finite leaves an infinity as it is; a NaN gives the canonical one. -/
theorem fmul_nonfinite_pos {a b : F64} (h : isFinite a = false) {n f : Nat} (hb : unpack b = .fin false n f)
    (hn : n ≠ 0) : fmul a b = a ∨ fmul a b = canonNaN := by
  rcases nonfinite_cases h with ha | ⟨s, rfl⟩
  · exact .inr (fmul_nan_left ha b)
  · exact .inl (by rw [fmul_infOf_fin s hb, if_neg hn, Bool.xor_false])

/-- The constants of the skew and the unskew are positive. -/
theorem unpack_cF2 : unpack cF2 = .fin false 0x176CF5D0B09954 1020 := by decide
theorem unpack_cG2 : unpack cG2 = .fin false 0x1B0CB174DF99C8 1019 := by decide

/-- A pattern that is not finite less itself. -/
theorem fsub_nonfinite_self {a : F64} (h : isFinite a = false) : fsub a a = canonNaN := by
  rcases nonfinite_cases h with ha | ⟨s, rfl⟩
  · exact fsub_nan_left ha a
  · rw [fsub, fneg_infOf, fadd_infOf_infOf, if_neg (by simp)]

/-! The points with a NaN sample (R167) -/

/-- A skewed point with a coordinate that is not finite: that coordinate dominates the unskewed sum `d`, and the cell
origin subtracts it from itself. -/
theorem cellOrigin_nonfinite {c d : F64} (hc : isFinite c = false) (hd : d = c ∨ d = canonNaN) :
    fsub c (fmul d cG2) = canonNaN := by
  rcases hd with rfl | rfl
  · rcases fmul_nonfinite_pos hc unpack_cG2 (by decide) with ht | ht <;> rw [ht]
    · exact fsub_nonfinite_self hc
    · exact fsub_nan_right _ unpack_canonNaN
  · rw [fmul_nan_left unpack_canonNaN]
    exact fsub_nan_right _ unpack_canonNaN

/-- The offset of the origin corner in `x` is a NaN when the skewed `x` is not finite. -/
theorem toLattice_x0_nonfinite {x y : F64} (h : isFinite (fadd x (fmul (fadd x y) cF2)) = false) :
    (toLattice x y).x0 = canonNaN := by
  have hi := (isFinite_ffloor _).trans h
  exact fsub_nan_right x (cellOrigin_nonfinite hi (fadd_nonfinite_left hi _) ▸ unpack_canonNaN)

/-- The offset in `y` likewise. -/
theorem toLattice_y0_nonfinite {x y : F64} (h : isFinite (fadd y (fmul (fadd x y) cF2)) = false) :
    (toLattice x y).y0 = canonNaN := by
  have hj := (isFinite_ffloor _).trans h
  exact fsub_nan_right y (cellOrigin_nonfinite hj (fadd_nonfinite_right _ hj) ▸ unpack_canonNaN)

theorem falloff_nan_left {xc : F64} (h : unpack xc = .nan) (yc : F64) : falloff xc yc = canonNaN := by
  rw [falloff, fmul_nan_left h, fsub_nan_right cHALF unpack_canonNaN]
  exact fsub_nan_left unpack_canonNaN _

theorem falloff_nan_right (xc : F64) {yc : F64} (h : unpack yc = .nan) : falloff xc yc = canonNaN := by
  rw [falloff, fmul_nan_left h]
  exact fsub_nan_right _ unpack_canonNaN

/-- A NaN falloff is not below zero, so its corner takes the product, whatever the gradient (R164). -/
theorem corner_nan {xc yc : F64} (h : unpack (falloff xc yc) = .nan) (gi : BitVec 4) : corner gi xc yc = canonNaN := by
  simp only [corner, flt_nan_left h, Bool.false_eq_true, if_false, fmul_nan_left h, fmul_nan_left unpack_canonNaN]

/-- A NaN falloff at the origin corner makes the sample NaN under every table: its contribution is in both
sums. -/
theorem noise2_nan {x y : F64} (h : falloff (toLattice x y).x0 (toLattice x y).y0 = canonNaN) (tb : Tables) :
    noise2 tb x y = canonNaN := by
  simp only [noise2, corner_nan (h ▸ unpack_canonNaN), fadd_nan_left unpack_canonNaN,
    fmul_nan_right cSCALE unpack_canonNaN]

/-- The sample is a NaN when a skewed coordinate is not finite. -/
theorem noise2_skewed_nonfinite {x y : F64} (h : isFinite (fadd x (fmul (fadd x y) cF2)) = false ∨
    isFinite (fadd y (fmul (fadd x y) cF2)) = false) (tb : Tables) : noise2 tb x y = canonNaN := by
  apply noise2_nan
  rcases h with h | h
  · rw [toLattice_x0_nonfinite h]
    exact falloff_nan_left unpack_canonNaN _
  · rw [toLattice_y0_nonfinite h]
    exact falloff_nan_right _ unpack_canonNaN

/-- The skew `(x + y) × F2` is not finite when the sum is not. -/
theorem isFinite_skew_nonfinite {a : F64} (h : isFinite a = false) : isFinite (fmul a cF2) = false := by
  rcases fmul_nonfinite_pos h unpack_cF2 (by decide) with hs | hs <;> simp [hs, h]

/-- Each cause that R167 names makes a skewed coordinate non-finite. -/
theorem skewed_nonfinite {x y : F64} (h : isFinite x = false ∨ isFinite y = false ∨ isFinite (fadd x y) = false ∨
    isFinite (fadd x (fmul (fadd x y) cF2)) = false ∨ isFinite (fadd y (fmul (fadd x y) cF2)) = false) :
    isFinite (fadd x (fmul (fadd x y) cF2)) = false ∨ isFinite (fadd y (fmul (fadd x y) cF2)) = false := by
  rcases h with hx | hy | hsum | hskewed
  · exact .inl (isFinite_fadd_nonfinite_left hx _)
  · exact .inr (isFinite_fadd_nonfinite_left hy _)
  · exact .inl (isFinite_fadd_nonfinite_right x (isFinite_skew_nonfinite hsum))
  · exact hskewed

/-- Settles O40: a skewed coordinate that is not finite makes the sample NaN, which NOISE writes and flags. -/
theorem nonfinitePointGivesNaN : Obligations.NonfinitePointGivesNaN := by
  unfold Obligations.NonfinitePointGivesNaN
  refine ⟨fun tb x y h => noise2_skewed_nonfinite (skewed_nonfinite h) tb, fun s h => ⟨_, exec_noise s, ?_, ?_⟩⟩
  · rw [writeResult_result, noise2_skewed_nonfinite (skewed_nonfinite h)]
  · rw [writeResult_status, noise2_skewed_nonfinite (skewed_nonfinite h)]
    exact Bool.or_true _

end Sys2Proof.Machine
end

section
/-! FBM (R180 to R188): the octave loop as a sequence of local values, what it leaves for no octave and for one, the sum
of +0.0 and a product, and the sums over a constant kernel. -/

namespace Sys2Proof.Machine

/-! The octave loop -/

/-- One octave more is one step after the octaves before it: octave 1 runs first (R182). -/
theorem fbmLoop_succ (kernel : F64 → F64 → F64) (x y pers lac : F64) (n : Nat) (o : Octave) :
    fbmLoop kernel x y pers lac (n + 1) o = fbmStep kernel x y pers lac (fbmLoop kernel x y pers lac n o) := by
  induction n generalizing o with
  | zero => rfl
  | succ n ih => exact ih (fbmStep kernel x y pers lac o)

/-- The command-local values of FBM from the state `s` after `n` octaves (R50, R181). -/
def fbmOctave (s : State) (n : Nat) : Octave :=
  fbmLoop (noise2 s.tables) s.x s.y s.pers s.lac n { total := cZERO, amp := s.amp, freq := s.freq }

theorem fbmOctave_succ (s : State) (n : Nat) :
    fbmOctave s (n + 1) = fbmStep (noise2 s.tables) s.x s.y s.pers s.lac (fbmOctave s n) :=
  fbmLoop_succ _ _ _ _ _ n _

/-! FBM as one update of the state -/

/-- FBM writes the total of its last octave and raises its two flags; the octaves are local to it (R180, R181). -/
theorem exec_fbm_eq_update (s : State) :
    exec .fbm s = .next { s with
      result := (fbmOctave s s.octaves.toNat).total
      status := { s.status with
        unseeded := s.status.unseeded || !s.status.seeded
        nonfinite := s.status.nonfinite || isNonfinite (fbmOctave s s.octaves.toNat).total } } :=
  (exec_fbm s).trans (congrArg Host.Outcome.next (writeResult_noteUnseeded _ s))

/-- Settles O46: the three sequences are the fields of the local values after each octave. -/
theorem fbmSumsItsOctaves : Obligations.FbmSumsItsOctaves := by
  unfold Obligations.FbmSumsItsOctaves
  intro s
  refine ⟨fun n => (fbmOctave s n).total, fun n => (fbmOctave s n).amp, fun n => (fbmOctave s n).freq,
    rfl, rfl, rfl, fun n _ => ?_, exec_fbm_eq_update s⟩
  have hstep := fbmOctave_succ s n
  exact ⟨congrArg Octave.total hstep, congrArg Octave.amp hstep, congrArg Octave.freq hstep⟩

/-- Settles O47: with no octave the total is the +0.0 it starts from, which is finite. -/
theorem zeroOctavesGiveZero : Obligations.ZeroOctavesGiveZero := by
  unfold Obligations.ZeroOctavesGiveZero
  intro s hoct
  have htotal : (fbmOctave s s.octaves.toNat).total = cZERO := by rw [hoct]; rfl
  have hfinite : isNonfinite cZERO = false := by decide
  rw [exec_fbm_eq_update, htotal, hfinite, Bool.or_false]
  rfl

/-! Adding a zero on the left (R184) -/

/-- A finite pattern with significand 0 is the zero of its sign. -/
theorem eq_zeroOf_of_unpack {a : F64} {s : Bool} {e : Nat} (h : unpack a = .fin s 0 e) : a = zeroOf s := by
  obtain ⟨⟨-, -, hnormal⟩, ha⟩ := finite_of_unpack h
  obtain rfl : e = 0 := by omega
  exact ha

/-- A sum of two zeros is +0.0 unless both are −0.0 (R16). -/
theorem fadd_zeroOf_zeroOf (s t : Bool) : fadd (zeroOf s) (zeroOf t) = zeroOf (s && t) := by
  cases s <;> cases t <;> decide

/-- A zero of either sign added to a finite value other than zero gives its pattern back: the exact sum is the value,
which needs no rounding. -/
theorem fadd_zeroOf_fin (z : Bool) {b : F64} {t : Bool} {n f : Nat} (hb : unpack b = .fin t n f) (hn : 0 < n) :
    fadd (zeroOf z) b = b := by
  have hpos : 0 < n * 2 ^ f := by positivity
  have hsum : signed z (0 * 2 ^ (0 - min 0 f)) + signed t (n * 2 ^ (f - min 0 f)) = signed t (n * 2 ^ f) := by
    rw [Nat.zero_min, Nat.zero_mul, Nat.sub_zero]
    cases z <;> simp [signed]
  have hne : signed t (n * 2 ^ f) ≠ 0 := by
    rw [← Int.natAbs_ne_zero, natAbs_signed]
    exact hpos.ne'
  have hsign : decide (signed t (n * 2 ^ f) < 0) = t := by simp [signed_neg_iff t hpos]
  have hround := roundToF64_self hb hn f
  rw [sub_self] at hround
  rw [fadd_fin (unpack_zeroOf z) hb, hsum, if_neg hne, hsign, natAbs_signed, Nat.zero_min]
  exact hround

/-- +0.0 added to a pattern gives the pattern back, but for −0.0 and for a NaN that is not the canonical one. -/
theorem fadd_cZERO_left {b : F64} (hnan : isNaN b = true → b = canonNaN) (hb : b ≠ zeroOf true) :
    fadd cZERO b = b := by
  cases hu : unpack b with
  | nan =>
    rw [fadd_nan_right _ hu]
    exact (hnan ((isNaN_iff b).2 hu)).symm
  | inf t =>
    obtain rfl := eq_infOf hu
    exact fadd_fin_infOf (unpack_zeroOf false) t
  | fin t n f =>
    rcases Nat.eq_zero_or_pos n with rfl | hn
    · obtain rfl := eq_zeroOf_of_unpack hu
      cases t with
      | false => exact fadd_zeroOf_zeroOf false false
      | true => exact absurd rfl hb
    · exact fadd_zeroOf_fin false hu hn

/-! One octave -/

/-- The total of one octave: PERS and LAC only make the amplitude and the frequency of a second one (R184). -/
theorem fbmTotal_one (kernel : F64 → F64 → F64) (x y amp freq pers lac : F64) :
    fbmTotal kernel x y 1 amp freq pers lac =
      fadd cZERO (fmul (kernel (fmul x freq) (fmul y freq)) amp) := by
  rw [fbmTotal, fbmLoop, fbmLoop, fbmStep]

/-- RESULT after FBM with one octave (R184). -/
theorem result_of_fbm_one {s t : State} (hoct : s.octaves = 1) (h : exec .fbm s = .next t) :
    t.result = fadd cZERO (fmul (noise2 s.tables (fmul s.x s.freq) (fmul s.y s.freq)) s.amp) := by
  rw [result_of_runs_fbm (.inl rfl) h, hoct]
  exact fbmTotal_one _ _ _ _ _ _ _

/-- Settles O48: RESULT is +0.0 plus the product, in which PERS and LAC do not occur; a product is no NaN but the
canonical one, so the sum is the product unless that is −0.0. -/
theorem oneOctaveIsTheScaledSample : Obligations.OneOctaveIsTheScaledSample := by
  unfold Obligations.OneOctaveIsTheScaledSample
  intro s hoct product
  refine ⟨⟨_, exec_fbm s, ?_⟩, fun pers lac t u ht hu => ?_⟩
  · have hresult := result_of_fbm_one hoct (exec_fbm s)
    refine ⟨hresult, fun hne => hresult.trans (fadd_cZERO_left (fmul_eq_canonNaN _ _) hne), fun heq => ?_⟩
    calc _ = fadd cZERO product := hresult
      _ = fadd (zeroOf false) (zeroOf true) := by rw [heq]; rfl
      _ = zeroOf false := fadd_zeroOf_zeroOf false true
  · rw [result_of_fbm_one hoct ht, result_of_fbm_one (s := { s with pers := pers, lac := lac }) hoct hu]

/-! The amplitude budget (R188) -/

/-- Over a constant kernel the octaves are the same at every point: the scaled coordinates reach the kernel only. -/
theorem fbmLoop_const_point (c x y u v pers lac : F64) (n : Nat) (o : Octave) :
    fbmLoop (fun _ _ => c) x y pers lac n o = fbmLoop (fun _ _ => c) u v pers lac n o := by
  induction n generalizing o with
  | zero => rfl
  | succ n ih => exact ih _

/-- Settles O49: the octaves do not depend on the point, and at the origin they are evaluated. -/
theorem amplitudeBudget : Obligations.AmplitudeBudget := by
  unfold Obligations.AmplitudeBudget
  intro x y
  simp only [fbmTotal, fbmLoop_const_point cONE x y cZERO cZERO]
  decide +kernel

end Sys2Proof.Machine
end

section
/-! NOP and the host's two transactions (R190 to R195, R205): the writes to STATUS, what a write and a read of each kind
of register do, and the flags that a query raises again after a clearing write. -/

namespace Sys2Proof.Machine

open Sys2Proof (Instr Reg Command)

/-! STATUS as a word, and the writes that clear it (R34, R193) -/

/-- The word of STATUS determines the five flags: it holds each in a bit of its own. -/
theorem statusWord_inj {st st' : Status} (h : st.word = st'.word) : st = st' := by
  have hbit (k : Nat) : st.word.getLsbD k = st'.word.getLsbD k := by rw [h]
  cases st
  cases st'
  have hbits := And.intro (hbit 0) <| And.intro (hbit 1) <| And.intro (hbit 2) <| And.intro (hbit 3) (hbit 4)
  simp only [getLsbD_statusWord] at hbits
  simpa using hbits

/-- Clearing no bit leaves STATUS as it was. -/
@[simp] theorem clear_zero (st : Status) : st.clear 0 = st := by
  simp [Status.clear]

/-- The data of `clrerr` has a 1 at each of the four flags, and the bit of SEEDED is never written. -/
theorem clear_clrerr (st : Status) :
    st.clear 0x1E = ⟨st.seeded, false, false, false, false⟩ := by
  simp [Status.clear]

theorem exec_wr_status (d : Data) (s : State) :
    exec (.wr .status d) s = .next { s with status := s.status.clear d } :=
  exec_wr Reg.noConfusion d s

/-- The example of R193: with SEEDED, NONFINITE and UNSEEDED set, writing 0x04 clears NONFINITE alone. -/
theorem clear_word_of_word_0x15 {st : Status} (h : st.word = 0x15) : (st.clear 0x04).word = 0x11 := by
  have hst : st = ⟨true, false, true, false, true⟩ := statusWord_inj (h.trans (by decide))
  rw [hst]
  decide

/-! The write to CMD (R104, R190, R191) -/

/-- Data whose low half is a command's word does what that command does. -/
theorem exec_wr_cmd_command {d : Data} {c : Command} (h : d.setWidth 32 = encodeCommand c) (s : State) :
    exec (.wr .cmd d) s = exec c.toInstr s :=
  exec_of_runs (.inr ⟨d, rfl, h⟩) s

theorem exec_command_completes (c : Command) (s : State) : ∃ t, exec c.toInstr s = .next t := by
  cases c with
  | nop => exact ⟨_, exec_nop s⟩
  | seed => exact ⟨_, exec_seed s⟩
  | noise => exact ⟨_, exec_noise s⟩
  | fbm => exact ⟨_, exec_fbm s⟩

/-- Every write to CMD completes: its low half is a command's word or it is reserved. -/
theorem exec_wr_cmd_completes (d : Data) (s : State) : ∃ t, exec (.wr .cmd d) s = .next t := by
  by_cases h : ∃ c : Command, d.setWidth 32 = encodeCommand c
  · obtain ⟨c, hc⟩ := h
    rw [exec_wr_cmd_command hc]
    exact exec_command_completes c s
  · exact ⟨_, exec_wr_cmd_reserved (not_exists.1 h) s⟩

/-! BADACCESS (R195, R205) -/

theorem notWritable_iff (r : Reg) :
    r.notWritable = true ↔
      r = .result ∨ r = .rngState ∨ r = .rngRaw ∨ r = .tblData ∨ r = .id ∨ ∃ idx, r = .reserved idx := by
  cases r <;> simp [Reg.notWritable]

/-- A write to a read-only register or a reserved index does nothing but raise BADACCESS. -/
theorem exec_wr_notWritable {r : Reg} (h : r.notWritable = true) (d : Data) (s : State) :
    exec (.wr r d) s = .next { s with status := { s.status with badaccess := true } } := by
  obtain rfl | rfl | rfl | rfl | rfl | ⟨idx, rfl⟩ := (notWritable_iff r).1 h <;>
    exact exec_wr Reg.noConfusion d s

/-- A read of a reserved index returns 0 and raises BADACCESS. -/
theorem exec_rd_reserved (idx : BitVec 5) (s : State) :
    exec (.rd (.reserved idx)) s =
      .next { s with readData := some 0, status := { s.status with badaccess := true } } :=
  exec_rd (.reserved idx) s

/-- A read of any other register returns its value and changes nothing of the machine (R78). -/
theorem exec_rd_of_readable (r : Reg) (s : State) (h : readIsBad r = false) :
    exec (.rd r) s = .next { s with readData := some (readReg r s) } := by
  rw [exec_rd, h, raiseIf_false]

/-! The flags of a query (R206, R207) -/

/-- NOISE and FBM, in either form, end and start alike: they differ in the value they write only. -/
theorem exec_of_runs_query {i : Instr} (hi : i.runs .noise ∨ i.runs .fbm) (s : State) :
    ∃ v, exec i s = .next (writeResult v (noteUnseeded s)) := by
  rcases hi with hnoise | hfbm
  · exact ⟨_, (exec_of_runs hnoise s).trans (exec_noise s)⟩
  · exact ⟨_, (exec_of_runs hfbm s).trans (exec_fbm s)⟩

/-- The flags after a query: UNSEEDED joins in when no SEED has completed, NONFINITE when the result is not finite. -/
theorem status_of_runs_query {i : Instr} {s t : State} (hi : i.runs .noise ∨ i.runs .fbm)
    (h : exec i s = .next t) :
    t.status = { s.status with
      unseeded := s.status.unseeded || !s.status.seeded
      nonfinite := s.status.nonfinite || isNonfinite t.result } := by
  obtain ⟨v, hv⟩ := exec_of_runs_query hi s
  obtain rfl := Host.Outcome.next.inj (hv.symm.trans h)
  rw [writeResult_status, noteUnseeded_status, writeResult_result]

/-! The statements -/

/-- Settles O51: data whose low half is 0 carries NOP's word. -/
theorem nopChangesNothing : Obligations.NopChangesNothing := by
  unfold Obligations.NopChangesNothing
  intro s
  exact ⟨exec_nop s, fun d hd => (exec_wr_cmd_command (c := .nop) hd s).trans (exec_nop s)⟩

/-- Settles O52: CMD by its command word, a read-only register or a reserved index by `exec_wr_notWritable`, and every
other index by what `writeReg` stores there. -/
theorem writeEffects : Obligations.WriteEffects := by
  unfold Obligations.WriteEffects
  intro s d
  refine ⟨fun c hc => exec_wr_cmd_command hc s, fun hres => exec_wr_cmd_reserved hres s,
    exec_wr_cmd_completes d s, exec_wr_status d s, exec_wr (r := .seed) nofun d s, exec_wr (r := .x) nofun d s,
    exec_wr (r := .y) nofun d s, exec_wr (r := .octaves) nofun d s, exec_wr (r := .amp) nofun d s,
    exec_wr (r := .freq) nofun d s, exec_wr (r := .pers) nofun d s, exec_wr (r := .lac) nofun d s,
    exec_wr (r := .tblAddr) nofun d s, fun r hr => exec_wr_notWritable ?_ d s,
    fun idx => exec_wr_notWritable rfl d s, exec_wr (r := .octaves) nofun _ s⟩
  have hall : ∀ r ∈ [Reg.result, .rngState, .rngRaw, .tblData, .id], r.notWritable = true := by decide
  exact hall r hr

/-- Settles O53: only a reserved index is a bad read, and every other read returns `readReg`. -/
theorem readValues : Obligations.ReadValues := by
  unfold Obligations.ReadValues
  refine ⟨fun s => ⟨exec_rd_of_readable .cmd s rfl, exec_rd_of_readable .status s rfl,
    exec_rd_of_readable .seed s rfl, exec_rd_of_readable .x s rfl, exec_rd_of_readable .y s rfl,
    exec_rd_of_readable .octaves s rfl, exec_rd_of_readable .amp s rfl, exec_rd_of_readable .freq s rfl,
    exec_rd_of_readable .pers s rfl, exec_rd_of_readable .lac s rfl, exec_rd_of_readable .result s rfl,
    exec_rd_of_readable .rngState s rfl, exec_rd_of_readable .rngRaw s rfl, exec_rd_of_readable .tblAddr s rfl,
    exec_rd_of_readable .tblData s rfl, exec_rd_of_readable .id s rfl, fun idx => exec_rd_reserved idx s⟩,
    exec_rd_of_readable .id _ rfl, ?_⟩
  have hword : readReg .status State.reset = 0 := by decide
  rw [exec_rd_of_readable .status _ rfl, hword]

/-- Settles O55: the clearing writes by the bits of their data; the causes set their flags from every state, and so
after any write to STATUS. -/
theorem clearingFlags : Obligations.ClearingFlags := by
  unfold Obligations.ClearingFlags
  refine ⟨fun s => ⟨?clrerr, ?zero, fun hword => ⟨_, exec_wr_status _ s, clear_word_of_word_0x15 hword⟩⟩,
    fun _ t u _ _ => ⟨fun w hres hu => ?illegal, fun r w hr hu => ?badWrite, fun idx hu => ?badRead,
      fun i hi hu => ⟨fun hseeded => ?unseeded, fun hresult => ?nonfinite⟩⟩⟩
  case clrerr => rw [exec_wr_status, clear_clrerr]
  case zero => rw [exec_wr_status, clear_zero]
  case illegal =>
    obtain rfl := Host.Outcome.next.inj ((exec_wr_cmd_reserved hres t).symm.trans hu)
    rfl
  case badWrite =>
    obtain rfl := Host.Outcome.next.inj ((exec_wr_notWritable hr w t).symm.trans hu)
    rfl
  case badRead =>
    obtain rfl := Host.Outcome.next.inj ((exec_rd_reserved idx t).symm.trans hu)
    rfl
  case unseeded =>
    rw [status_of_runs_query hi hu, hseeded]
    exact Bool.or_true _
  case nonfinite =>
    rw [status_of_runs_query hi hu, hresult]
    exact Bool.or_true _

/-- Settles O56: the three causes, CMD as a readable register, and the two examples as special cases. -/
theorem badAccess : Obligations.BadAccess := by
  unfold Obligations.BadAccess
  intro s d
  exact ⟨fun r hr => exec_wr_notWritable hr d s, notWritable_iff, fun idx => exec_rd_reserved idx s,
    exec_rd_of_readable .cmd s rfl, exec_wr_notWritable rfl 0 s, exec_rd_reserved 0x1F s⟩

end Sys2Proof.Machine
end

section
/-! The causes of the four flags (R203 to R207): what raises or clears each flag, as a property of the instruction; which
of these properties an instruction of each form has; and what an instruction of each form leaves in STATUS. -/

namespace Sys2Proof.Machine

open Sys2Proof (Instr Reg Command)

/-! Raising a flag, as the word of STATUS shows it -/

/-- Setting a flag sets the bit of its code (R203). -/
theorem word_set (st : Status) (f : Flag) : (st.set f).word = st.word ||| 1#32 <<< f.code := by
  refine BitVec.eq_of_getLsbD_eq fun k hk => ?_
  rw [BitVec.getLsbD_or, getLsbD_statusWord, getLsbD_statusWord, ← BitVec.twoPow_eq, BitVec.getLsbD_twoPow]
  cases f <;> grind [Flag.code, Status.set]

/-! What raises and what clears a flag -/

/-- A write to CMD of a reserved command word, the cause of ILLEGAL (R204). -/
def WritesReservedWord (i : Instr) : Prop :=
  ∃ d : Data, i = .wr .cmd d ∧ ∀ c : Command, d.setWidth 32 ≠ encodeCommand c

/-- NOISE or FBM in either form, the causes of NONFINITE and UNSEEDED (R206, R207). -/
def RunsQuery (i : Instr) : Prop := i.runs .noise ∨ i.runs .fbm

/-- A write to a read-only register or a reserved index, or a read of a reserved index: the causes of BADACCESS (R205). -/
def AccessesBadly (i : Instr) : Prop :=
  (∃ r d, i = .wr r d ∧ r.notWritable = true) ∨ ∃ idx, i = .rd (.reserved idx)

/-- The instruction is no write to STATUS with a 1 at bit `k`, so the flag there is not cleared (R193). -/
def LeavesFlag (k : Nat) (i : Instr) : Prop := ∀ d : Data, i = .wr .status d → d.getLsbD k = false

/-- Each flag is 1 in `t` exactly when a cause of it occurred in `i`, or it was 1 in `s` and `i` did not clear it. -/
structure FlagsByCause (i : Instr) (s t : State) : Prop where
  illegal : t.status.illegal = true ↔ WritesReservedWord i ∨ (s.status.illegal = true ∧ LeavesFlag 1 i)
  nonfinite : t.status.nonfinite = true ↔
    (RunsQuery i ∧ isNonfinite t.result = true) ∨ (s.status.nonfinite = true ∧ LeavesFlag 2 i)
  badaccess : t.status.badaccess = true ↔ AccessesBadly i ∨ (s.status.badaccess = true ∧ LeavesFlag 3 i)
  unseeded : t.status.unseeded = true ↔
    (RunsQuery i ∧ s.status.seeded = false) ∨ (s.status.unseeded = true ∧ LeavesFlag 4 i)

/-! The write and the read -/

@[simp] theorem toInstr_ne_wr (c : Command) (r : Reg) (d : Data) : c.toInstr ≠ .wr r d := by cases c <;> nofun

@[simp] theorem toInstr_ne_rd (c : Command) (r : Reg) : c.toInstr ≠ .rd r := by cases c <;> nofun

@[simp] theorem runs_wr_iff (c : Command) (r : Reg) (d : Data) :
    (Instr.wr r d).runs c ↔ r = .cmd ∧ d.setWidth 32 = encodeCommand c := by
  simp [Instr.runs, (toInstr_ne_wr c r d).symm]

@[simp] theorem not_runs_rd (c : Command) (r : Reg) : ¬ (Instr.rd r).runs c := by
  simp [Instr.runs, (toInstr_ne_rd c r).symm]

@[simp] theorem writesReservedWord_wr_iff (r : Reg) (d : Data) :
    WritesReservedWord (.wr r d) ↔ r = .cmd ∧ ∀ c : Command, d.setWidth 32 ≠ encodeCommand c := by
  simp [WritesReservedWord]

@[simp] theorem not_writesReservedWord_rd (r : Reg) : ¬ WritesReservedWord (.rd r) := by
  simp [WritesReservedWord]

@[simp] theorem accessesBadly_wr_iff (r : Reg) (d : Data) : AccessesBadly (.wr r d) ↔ r.notWritable = true := by
  simp [AccessesBadly]

@[simp] theorem accessesBadly_rd_iff (r : Reg) : AccessesBadly (.rd r) ↔ readIsBad r = true := by
  cases r <;> simp [AccessesBadly, readIsBad]

@[simp] theorem leavesFlag_wr_iff (k : Nat) (r : Reg) (d : Data) :
    LeavesFlag k (.wr r d) ↔ (r = .status → d.getLsbD k = false) := by
  simp [LeavesFlag]

@[simp] theorem leavesFlag_rd (k : Nat) (r : Reg) : LeavesFlag k (.rd r) := by
  simp [LeavesFlag]

/-! A command in either form -/

theorem not_writesReservedWord_of_runs {c : Command} {i : Instr} (h : i.runs c) : ¬ WritesReservedWord i := by
  rcases h with rfl | ⟨d, rfl, hd⟩
  · simp [WritesReservedWord]
  · exact fun hres => ((writesReservedWord_wr_iff .cmd d).1 hres).2 c hd

theorem not_accessesBadly_of_runs {c : Command} {i : Instr} (h : i.runs c) : ¬ AccessesBadly i := by
  rcases h with rfl | ⟨d, rfl, -⟩
  · simp [AccessesBadly]
  · simp [Reg.notWritable]

theorem leavesFlag_of_runs {c : Command} {i : Instr} (h : i.runs c) (k : Nat) : LeavesFlag k i := by
  rcases h with rfl | ⟨d, rfl, -⟩
  · simp [LeavesFlag]
  · simp

theorem toInstr_inj {c c' : Command} (h : c.toInstr = c'.toInstr) : c = c' := by
  revert h
  cases c <;> cases c' <;> decide

theorem encodeCommand_inj {c c' : Command} (h : encodeCommand c = encodeCommand c') : c = c' := by
  simpa using congrArg decodeCommand h

/-- An instruction runs one command at most. -/
theorem runs_unique {c c' : Command} {i : Instr} (h : i.runs c) (h' : i.runs c') : c = c' := by
  rcases h with rfl | ⟨d, rfl, hd⟩
  · obtain h' | ⟨d, h', -⟩ := h'
    · exact toInstr_inj h'
    · exact absurd h' (toInstr_ne_wr c .cmd d)
  · exact encodeCommand_inj (hd.symm.trans ((runs_wr_iff c' .cmd d).1 h').2)

theorem not_runsQuery_of_runs {c : Command} {i : Instr} (h : i.runs c) (hnoise : c ≠ .noise) (hfbm : c ≠ .fbm) :
    ¬ RunsQuery i := by
  rintro (hq | hq)
  · exact hnoise (runs_unique h hq)
  · exact hfbm (runs_unique h hq)

/-! What an instruction of each form leaves in STATUS -/

/-- NOP and SEED touch none of the four flags. -/
theorem flagsByCause_of_not_query {c : Command} {i : Instr} {s t : State} (h : i.runs c) (hnoise : c ≠ .noise)
    (hfbm : c ≠ .fbm) (ht : ∃ b, t.status = { s.status with seeded := b }) : FlagsByCause i s t := by
  obtain ⟨b, ht⟩ := ht
  have hres := not_writesReservedWord_of_runs h
  have hbad := not_accessesBadly_of_runs h
  have hquery := not_runsQuery_of_runs h hnoise hfbm
  constructor <;> simp [ht, hres, hbad, hquery, leavesFlag_of_runs h]

/-- NOISE and FBM raise NONFINITE by their result and UNSEEDED by SEEDED, and touch no other flag (R206, R207). -/
theorem flagsByCause_of_query {c : Command} {i : Instr} {s t : State} (h : i.runs c) (hi : RunsQuery i)
    (hexec : exec i s = .next t) : FlagsByCause i s t := by
  have ht := status_of_runs_query hi hexec
  have hres := not_writesReservedWord_of_runs h
  have hbad := not_accessesBadly_of_runs h
  constructor <;> simp [ht, hres, hbad, hi, leavesFlag_of_runs h, or_comm]

/-- A reserved command word raises ILLEGAL only (R204). -/
theorem flagsByCause_reservedWord {d : Data} (h : ∀ c : Command, d.setWidth 32 ≠ encodeCommand c) (s : State) :
    FlagsByCause (.wr .cmd d) s (raise .illegal s) := by
  constructor <;> simp [RunsQuery, Reg.notWritable, h]

/-- What storing to a register does to STATUS: clears by the data, raises BADACCESS, or nothing (R191, R193, R195). -/
theorem writeReg_status (r : Reg) (d : Data) (s : State) :
    (writeReg r d s).status =
      if r = .status then s.status.clear d else if r.notWritable then s.status.set .badaccess else s.status := by
  cases r <;> rfl

/-- A write to STATUS clears by the bits of its data, one to a register the host may not write raises BADACCESS, and
one to any other register but CMD touches no flag. -/
theorem flagsByCause_writeReg {r : Reg} (h : r ≠ .cmd) (d : Data) (s : State) :
    FlagsByCause (.wr r d) s (writeReg r d s) := by
  by_cases hst : r = .status
  · subst hst
    constructor <;> simp [RunsQuery, writeReg_status, Reg.notWritable]
  · cases hw : r.notWritable <;> constructor <;> simp [RunsQuery, writeReg_status, h, hst, hw]

/-- A read raises BADACCESS at a reserved index, and touches no flag otherwise (R192). -/
theorem flagsByCause_read (r : Reg) (v : Option Data) (s : State) :
    FlagsByCause (.rd r) s { raiseIf (readIsBad r) .badaccess s with readData := v } := by
  cases hbad : readIsBad r <;> constructor <;> simp [RunsQuery, hbad]

/-- Every instruction leaves each flag as its causes say. -/
theorem exec_flagsByCause {i : Instr} {s t : State} (h : exec i s = .next t) : FlagsByCause i s t := by
  rcases exec_cases h with ⟨hi, rfl⟩ | ⟨hi, rfl⟩ | ⟨hi, -⟩ | ⟨hi, -⟩ | ⟨d, rfl, hd, rfl⟩ | ⟨r, d, rfl, hr, rfl⟩ |
    ⟨r, rfl, rfl⟩
  · exact flagsByCause_of_not_query hi nofun nofun ⟨_, rfl⟩
  · exact flagsByCause_of_not_query hi nofun nofun ⟨_, rfl⟩
  · exact flagsByCause_of_query hi (.inl hi) h
  · exact flagsByCause_of_query hi (.inr hi) h
  · refine flagsByCause_reservedWord (fun c hc => ?_) s
    have := toNat_encodeCommand_lt c
    rw [← hc] at this
    omega
  · exact flagsByCause_writeReg hr d s
  · exact flagsByCause_read r _ s

/-! The statement -/

/-- Settles O57: raising by the bits of the word of STATUS, and the four flags by `exec_flagsByCause`. -/
theorem flagsHaveTheListedCauses : Obligations.FlagsHaveTheListedCauses := by
  unfold Obligations.FlagsHaveTheListedCauses
  refine ⟨fun f s => ⟨word_set s.status f, rfl⟩, rfl, fun i s t h => ?_⟩
  obtain ⟨hillegal, hnonfinite, hbadaccess, hunseeded⟩ := exec_flagsByCause h
  exact ⟨hillegal, hnonfinite, hbadaccess.trans or_assoc, hunseeded⟩

end Sys2Proof.Machine
end

section
/-! The decoder and the encoder as inverses (R100 to R104), and the step as `exec` of what it decodes: a presented
transaction, a placed instruction, an idle step and a reset (R200, R220, R230). -/

namespace Sys2Proof.Machine

open Sys2Proof (Instr Reg Command)

/-! The decoder on the encoder's words (R103, R110) -/

/-- A row of 72 bits holds any transaction word, and decodes as that word (R100). -/
theorem decodeTableWord_xact (w : XactWord) : decodeTableWord 72 w.toNat = some (decodeXact w) := by
  have hrow : decodeRow 72 w.toNat = .ok (decodeXact w) := by
    rw [decodeRow, if_neg (by omega), if_pos ⟨.inr rfl, w.isLt⟩, BitVec.ofNat_toNat, BitVec.setWidth_eq]
  rw [decodeTableWord, hrow]

theorem decodeTableWord_command (c : Command) : decodeTableWord 32 (encodeCommand c).toNat = some c.toInstr := by
  cases c <;> decide

/-- Settles O1: a command by its word, a transaction by the register and the data of its word. -/
theorem decodeOfEncodeIsTheInstruction : Obligations.DecodeOfEncodeIsTheInstruction := by
  unfold Obligations.DecodeOfEncodeIsTheInstruction
  intro i hi
  cases i with
  | nop => exact decodeTableWord_command .nop
  | seed => exact decodeTableWord_command .seed
  | noise => exact decodeTableWord_command .noise
  | fbm => exact decodeTableWord_command .fbm
  | wr r d => exact (decodeTableWord_xact (wrWord r d)).trans (congrArg some (decodeXact_wrWord hi d))
  | rd r => exact (decodeTableWord_xact (rdWord r)).trans (congrArg some (decodeXact_rdWord hi))

/-! The encoder on what the decoder answers -/

theorem decodeXact_wr {w : XactWord} (h : w.getLsbD 69 = true) :
    decodeXact w = .wr (Reg.ofIdx (w.extractLsb' 64 5)) (w.extractLsb' 0 64) := if_pos h

theorem decodeXact_rd {w : XactWord} (h : w.getLsbD 69 = false) :
    decodeXact w = .rd (Reg.ofIdx (w.extractLsb' 64 5)) := if_neg (Bool.eq_false_iff.1 h)

/-- Every transaction word names a register by its index, so it decodes to a well-formed instruction (R55, R100). -/
theorem decodeXact_wellFormed (w : XactWord) : (decodeXact w).wellFormed = true := by
  cases h : w.getLsbD 69 with
  | true => rw [decodeXact_wr h]; exact ofIdx_wellFormed _
  | false => rw [decodeXact_rd h]; exact ofIdx_wellFormed _

/-- A word in the form a host writes it is its three fields and nothing else. -/
theorem encode_decodeXact {w : XactWord} (hw : xactWordWellFormed w = true) :
    encode (decodeXact w) = (72, w.toNat) := by
  obtain ⟨hwe, hidx, hdata⟩ := xact_fields w
  have hlt := w.isLt
  cases h : w.getLsbD 69 with
  | true =>
    have hge := of_decide_eq_true (hwe.symm.trans h)
    rw [decodeXact_wr h, encode, toNat_wrWord, idx_ofIdx, hidx, hdata]
    congr 1
    omega
  | false =>
    have hzero : (w.extractLsb' 0 64).toNat = 0 := by
      rw [xactWordWellFormed, h, Bool.false_or, decide_eq_true_iff] at hw
      rw [hw]
      rfl
    have hlow := of_decide_eq_false (hwe.symm.trans h)
    rw [decodeXact_rd h, encode, toNat_rdWord, idx_ofIdx, hidx]
    congr 1
    omega

/-- A command word is not reserved exactly when its value is that of one of the four commands (R104). -/
theorem cmdWordWellFormed_iff (w : CmdWord) : cmdWordWellFormed w = true ↔ w.toNat < 4 := by
  have hhi : (w.extractLsb' 8 24).toNat = w.toNat / 2 ^ 8 % 2 ^ 24 := by
    rw [BitVec.extractLsb'_toNat, Nat.shiftRight_eq_div_pow]
  have hlo : (w.extractLsb' 0 8).toNat = w.toNat % 2 ^ 8 := by
    rw [BitVec.extractLsb'_toNat, Nat.shiftRight_zero]
  have hlt := w.isLt
  have hzero : (0#24).toNat = 0 := rfl
  rw [cmdWordWellFormed, Bool.and_eq_true, decide_eq_true_iff, decide_eq_true_iff, ← BitVec.toNat_inj]
  omega

/-- Settles O2: a transaction word is its fields, and a command word is reserved exactly when its value is above 3. -/
theorem encodeOfDecodeIsTheWord : Obligations.EncodeOfDecodeIsTheWord := by
  unfold Obligations.EncodeOfDecodeIsTheWord
  refine ⟨decodeXact_wellFormed, fun w hw => encode_decodeXact hw, fun w hw => ?_, fun w hw => ?_⟩
  · rw [cmdWordWellFormed_iff] at hw
    obtain ⟨rfl, h⟩ | ⟨rfl, h⟩ | ⟨rfl, h⟩ | ⟨rfl, h⟩ | ⟨hbig, -⟩ := decodeCommand_cases w
    · exact ⟨.nop, h, rfl⟩
    · exact ⟨.seed, h, rfl⟩
    · exact ⟨.noise, h, rfl⟩
    · exact ⟨.fbm, h, rfl⟩
    · omega
  · have hbig : ¬ w.toNat < 4 := fun hlt => Bool.eq_false_iff.1 hw ((cmdWordWellFormed_iff w).2 hlt)
    obtain ⟨rfl, -⟩ | ⟨rfl, -⟩ | ⟨rfl, -⟩ | ⟨rfl, -⟩ | ⟨-, h⟩ := decodeCommand_cases w
    · exact absurd (by decide) hbig
    · exact absurd (by decide) hbig
    · exact absurd (by decide) hbig
    · exact absurd (by decide) hbig
    · exact h

/-- Settles O3: the transaction words are the encoder's words of their instructions, the command words those of R103. -/
theorem writtenOutWordsDecode : Obligations.WrittenOutWordsDecode := by
  unfold Obligations.WrittenOutWordsDecode
  exact ⟨decodeOfEncodeIsTheInstruction (.wr .cmd 0x2) rfl,
    decodeOfEncodeIsTheInstruction (.wr .x 0x3FD0000000000000) rfl,
    decodeOfEncodeIsTheInstruction (.rd .result) rfl, decodeTableWord_command .nop, decodeTableWord_command .seed,
    decodeTableWord_command .noise, decodeTableWord_command .fbm⟩

/-! A placed instruction (entry 1) -/

/-- The step after placing a row runs the row's transaction in the state itself. -/
theorem step_withFetchWord (s : State) (nbits w : Nat) :
    step (s.withFetchWord nbits w) = exec (decodeXact (fetchXact nbits w)) s :=
  step_xact (withFetchWord_pending s nbits w)

theorem fetchXact_xact (w : XactWord) : fetchXact 72 w.toNat = w := by
  rw [fetchXact, if_neg (by omega), BitVec.ofNat_toNat, BitVec.setWidth_eq]

/-- A placed command word travels in a write to CMD, whose low half is the word (R104). -/
theorem exec_fetchXact_command (w : CmdWord) (s : State) :
    exec (decodeXact (fetchXact 32 w.toNat)) s = execCommandWord w s := by
  have hdata : (w.zeroExtend 64).setWidth 32 = w := by simp
  rw [fetchXact, if_pos rfl, BitVec.ofNat_toNat, BitVec.setWidth_eq, cmdXactWord, decodeXact_wrWord rfl, exec_wr_cmd,
    hdata]

/-- Placing the row of a well-formed instruction runs that instruction. -/
theorem exec_fetchXact_encode {i : Instr} (hi : i.wellFormed = true) (s : State) :
    exec (decodeXact (fetchXact (encode i).1 (encode i).2)) s = exec i s := by
  have command (c : Command) : exec (decodeXact (fetchXact 32 (encodeCommand c).toNat)) s = exec c.toInstr s := by
    rw [exec_fetchXact_command, execCommandWord_encodeCommand]
  cases i with
  | nop => exact command .nop
  | seed => exact command .seed
  | noise => exact command .noise
  | fbm => exact command .fbm
  | wr r d => rw [encode, fetchXact_xact, decodeXact_wrWord hi]
  | rd r => rw [encode, fetchXact_xact, decodeXact_rdWord hi]

/-- A reserved command word only sets ILLEGAL (R107). -/
theorem execCommandWord_reserved {w : CmdWord} (h : cmdWordWellFormed w = false) (s : State) :
    execCommandWord w s = .next (raise .illegal s) := by
  obtain ⟨e, he⟩ := encodeOfDecodeIsTheWord.2.2.2 w h
  rw [execCommandWord, he]

/-- Settles O7: what is placed is taken first, and its row's transaction does what the instruction or the word does. -/
theorem placedInstructionRunsNext : Obligations.PlacedInstructionRunsNext := by
  unfold Obligations.PlacedInstructionRunsNext
  refine ⟨fun i s hi => ?_, fun w s hw => ?_⟩
  · rw [step_withFetchWord, exec_fetchXact_encode hi]
  · rw [step_withFetchWord, exec_fetchXact_command, execCommandWord_reserved hw]
    rfl

/-! The step by the event presented -/

/-- Settles O6: every word decodes, and the step hands the rest of the queue on. -/
theorem stepRunsTheDecodedInstruction : Obligations.StepRunsTheDecodedInstruction := by
  unfold Obligations.StepRunsTheDecodedInstruction
  exact fun s w later h => ⟨decodeXact_wellFormed w, step_xact h⟩

/-- Settles O8: no event, no change. -/
theorem idleStepHoldsTheState : Obligations.IdleStepHoldsTheState := by
  unfold Obligations.IdleStepHoldsTheState
  exact fun s h => step_idle h

/-- Settles O9: the reset that `RESET_TABLE` selects is `State.reset`. -/
theorem resetEventLeavesTheResetState : Obligations.ResetEventLeavesTheResetState := by
  unfold Obligations.ResetEventLeavesTheResetState
  exact fun s cut later h => step_reset h

/-- Every instruction completes: a command, a write to CMD whatever its word, a store, a read (R200). -/
theorem exec_completes (i : Instr) (s : State) : ∃ t, exec i s = .next t := by
  cases i with
  | nop => exact exec_command_completes .nop s
  | seed => exact exec_command_completes .seed s
  | noise => exact exec_command_completes .noise s
  | fbm => exact exec_command_completes .fbm s
  | wr r d =>
    by_cases hr : r = .cmd
    · subst hr
      exact exec_wr_cmd_completes d s
    · exact ⟨_, exec_wr hr d s⟩
  | rd r => exact ⟨_, exec_rd r s⟩

/-- Settles O10: a step is idle, a reset, or one instruction, which completes. -/
theorem everyTransactionCompletes : Obligations.EveryTransactionCompletes := by
  unfold Obligations.EveryTransactionCompletes
  refine ⟨exec_completes, fun s => ?_⟩
  match h : s.pending with
  | [] => exact ⟨_, step_idle h⟩
  | .xact w :: later =>
    rw [step_xact h]
    exact exec_completes _ _
  | .reset cut :: later => exact ⟨_, step_reset h⟩

end Sys2Proof.Machine
end

section
/-! What holds along every run: the table invariants, the canonical NaN in RESULT, the tables and the PRNG registers
as one build, and SEEDED (R34, R39, R49, R82). Each is kept by every instruction, then by every step. -/

namespace Sys2Proof.Machine

open Sys2Proof (Instr Reg Command)

/-! What SEED alone changes -/

/-- `t` holds the tables and both PRNG registers as `s` does. -/
structure SameBuild (s t : State) : Prop where
  tables : t.tables = s.tables
  rngState : t.rngState = s.rngState
  rngRaw : t.rngRaw = s.rngRaw

/-- Every instruction that runs no SEED leaves the tables and the PRNG registers (R47, R54). -/
theorem exec_sameBuild {i : Instr} {s t : State} (hseed : ¬ i.runs .seed) (h : exec i s = .next t) :
    SameBuild s t := by
  rcases exec_cases h with ⟨-, rfl⟩ | ⟨hi, -⟩ | ⟨-, rfl⟩ | ⟨-, rfl⟩ | ⟨d, -, -, rfl⟩ | ⟨r, d, -, -, rfl⟩ | ⟨r, -, rfl⟩
  · exact ⟨rfl, rfl, rfl⟩
  · exact absurd hi hseed
  · constructor <;> simp
  · constructor <;> simp
  · exact ⟨rfl, rfl, rfl⟩
  · constructor <;> simp
  · constructor <;> simp

/-- SEED in either form leaves its build (R135). -/
theorem eq_of_runs_seed {i : Instr} {s t : State} (hi : i.runs .seed) (h : exec i s = .next t) :
    t = completeSeed (buildPermutation s.seed s.rngRaw) s :=
  eq_of_exec_seed ((exec_of_runs hi s).symm.trans h)

/-- Settles O15, by cases on what an instruction can do. -/
theorem onlySeedChangesTheTables : Obligations.OnlySeedChangesTheTables := by
  unfold Obligations.OnlySeedChangesTheTables
  intro i s t h hseed
  obtain ⟨htables, hstate, hraw⟩ := exec_sameBuild hseed h
  exact ⟨htables, hstate, hraw⟩

/-! The canonical NaN in RESULT (R39) -/

/-- The total of FBM is +0.0 or a sum, so its NaN is the canonical one. -/
theorem fbmTotal_eq_canonNaN (kernel : F64 → F64 → F64) (x y : F64) (n : Nat) (amp freq pers lac : F64)
    (h : isNaN (fbmTotal kernel x y n amp freq pers lac) = true) :
    fbmTotal kernel x y n amp freq pers lac = canonNaN := by
  cases n with
  | zero => exact absurd h (show ¬ isNaN cZERO = true by decide)
  | succ n =>
    rw [fbmTotal, fbmLoop_succ] at h ⊢
    exact fadd_eq_canonNaN _ _ h

/-- The sample is a product, so its NaN is the canonical one. -/
theorem noise2_eq_canonNaN (tb : Tables) (x y : F64) (h : isNaN (noise2 tb x y) = true) :
    noise2 tb x y = canonNaN := by
  unfold noise2 at h ⊢
  exact fmul_eq_canonNaN _ _ h

/-- Only NOISE and FBM write RESULT, and neither writes a NaN but the canonical one. -/
theorem exec_keeps_canonical_result {i : Instr} {s t : State} (hs : isNaN s.result = true → s.result = canonNaN)
    (h : exec i s = .next t) : isNaN t.result = true → t.result = canonNaN := by
  rcases exec_cases h with ⟨-, rfl⟩ | ⟨-, rfl⟩ | ⟨-, rfl⟩ | ⟨-, rfl⟩ | ⟨d, -, -, rfl⟩ | ⟨r, d, -, -, rfl⟩ | ⟨r, -, rfl⟩
  · exact hs
  · rwa [completeSeed_result]
  · rw [writeResult_result]
    exact noise2_eq_canonNaN _ _ _
  · rw [writeResult_result]
    exact fbmTotal_eq_canonNaN _ _ _ _ _ _ _ _
  · exact hs
  · rwa [writeReg_result]
  · simpa using hs

/-! The invariant -/

/-- SEED rebuilds the tables, and every other instruction leaves them. -/
theorem exec_keeps_inv {i : Instr} {s t : State} (hs : Inv s) (h : exec i s = .next t) : Inv t := by
  refine ⟨?_, exec_keeps_canonical_result hs.result h⟩
  by_cases hseed : i.runs .seed
  · rw [eq_of_runs_seed hseed h]
    exact tablesInv_completeSeed _ _ hs.tables.wf
  · rw [(exec_sameBuild hseed h).tables]
    exact hs.tables

/-- The reset state meets the invariant, with whatever the host presents next. -/
theorem inv_applyReset (later : List HostEvent) : Inv (applyReset later) :=
  ⟨tablesInv_reset, fun h => absurd h (by rw [applyReset_result]; decide)⟩

/-- Settles O12: the reset state is a reset with nothing presented after it. -/
theorem resetSatisfiesTheInvariant : Obligations.ResetSatisfiesTheInvariant := by
  unfold Obligations.ResetSatisfiesTheInvariant
  exact inv_applyReset []

/-- Settles O14: a step is idle, one instruction, or a reset; the queue of events plays no part in the invariant. -/
theorem everyStepKeepsTheInvariant : Obligations.EveryStepKeepsTheInvariant := by
  unfold Obligations.EveryStepKeepsTheInvariant
  intro s t hs h
  rcases step_cases h with ⟨-, rfl⟩ | ⟨w, later, -, hexec⟩ | ⟨cut, later, -, rfl⟩
  · exact hs
  · exact exec_keeps_inv (s := { s with pending := later }) ⟨hs.tables, hs.result⟩ hexec
  · exact inv_applyReset later

/-! The tables and the PRNG registers as one build (R82, R84) -/

/-- Being one build is a property of the tables and the two PRNG registers. -/
theorem builtFrom_of_sameBuild {S : U32} {s t : State} (hs : BuiltFrom S s) (h : SameBuild s t) : BuiltFrom S t := by
  unfold BuiltFrom at hs ⊢
  rwa [h.tables, h.rngState, h.rngRaw]

/-- SEED leaves one build of its seed: what RNG_RAW held plays no part, and the fill replaces every entry (R135). -/
theorem builtFrom_completeSeed (S raw : U32) {s : State} (hwf : s.tables.wf = true) :
    BuiltFrom S (completeSeed (buildPermutation S raw) s) := by
  rw [buildPermutation_raw S raw 0]
  exact ⟨tables_wf_fillTables _ hwf le_rfl, fun n hn => read_fillTables _ hwf hn, rfl, rfl⟩

/-- Reset leaves the build of seed 0 (R53, R231). -/
theorem builtFrom_applyReset (later : List HostEvent) : BuiltFrom 0 (applyReset later) := by
  unfold BuiltFrom
  rw [buildPermutation_zero]
  exact ⟨tables_wf_empty, fun n _ => read_reset n, rfl, rfl⟩

theorem exec_keeps_oneBuild {i : Instr} {s t : State} (hs : ∃ S, BuiltFrom S s) (h : exec i s = .next t) :
    ∃ S, BuiltFrom S t := by
  obtain ⟨S, hS⟩ := hs
  by_cases hseed : i.runs .seed
  · rw [eq_of_runs_seed hseed h]
    exact ⟨s.seed, builtFrom_completeSeed _ _ hS.1⟩
  · exact ⟨S, builtFrom_of_sameBuild hS (exec_sameBuild hseed h)⟩

/-- Settles O16: SEED leaves a build of its own, reset that of seed 0, and any other step touches no part of a build. -/
theorem tablesAndPrngAreOneBuild : Obligations.TablesAndPrngAreOneBuild := by
  unfold Obligations.TablesAndPrngAreOneBuild
  refine ⟨⟨0, builtFrom_applyReset []⟩, fun s t hs h => ?_⟩
  rcases step_cases h with ⟨-, rfl⟩ | ⟨w, later, -, hexec⟩ | ⟨cut, later, -, rfl⟩
  · exact hs
  · exact exec_keeps_oneBuild (s := { s with pending := later }) hs hexec
  · exact ⟨0, builtFrom_applyReset later⟩

/-! SEEDED (R34, R136) -/

/-- An instruction sets SEEDED if it runs SEED, and leaves it otherwise. -/
theorem exec_seeded_iff {i : Instr} {s t : State} (h : exec i s = .next t) :
    t.status.seeded = true ↔ s.status.seeded = true ∨ i.runs .seed := by
  by_cases hseed : i.runs .seed
  · rw [eq_of_runs_seed hseed h]
    exact ⟨fun _ => .inr hseed, fun _ => rfl⟩
  · have hkeeps : t.status.seeded = s.status.seeded := by
      rcases exec_cases h with ⟨-, rfl⟩ | ⟨hi, -⟩ | ⟨-, rfl⟩ | ⟨-, rfl⟩ | ⟨d, -, -, rfl⟩ | ⟨r, d, -, -, rfl⟩ |
        ⟨r, -, rfl⟩
      · rfl
      · exact absurd hi hseed
      · simp
      · simp
      · simp
      · cases r <;> rfl
      · cases readIsBad r <;> rfl
    rw [hkeeps, or_iff_left hseed]

/-- Settles O17: by the event that the step takes. -/
theorem seededIsSetBySeedAndClearedByReset : Obligations.SeededIsSetBySeedAndClearedByReset := by
  unfold Obligations.SeededIsSetBySeedAndClearedByReset
  refine ⟨fun i s t h => exec_seeded_iff h, fun s t h => ?_⟩
  rcases step_cases h with ⟨hp, rfl⟩ | ⟨w, later, hp, hexec⟩ | ⟨cut, later, hp, rfl⟩
  · simp [hp]
  · simpa [hp] using exec_seeded_iff hexec
  · simp [hp, State.reset]

end Sys2Proof.Machine
end

section
/-! The host's registers and STATUS (R34, R36, R43, R71): the bits of STATUS, a read after a write, the table window,
NOISE as one update of the state, and that STATUS decides nothing but itself (R46, R202). -/

namespace Sys2Proof.Machine

open Sys2Proof (Instr Reg Command)

/-! NOISE as one update of the state -/

/-- NOISE writes its sample and raises its two flags (R150). -/
theorem exec_noise_eq_update (s : State) :
    exec .noise s = .next { s with
      result := noise2 s.tables s.x s.y
      status := { s.status with
        unseeded := s.status.unseeded || !s.status.seeded
        nonfinite := s.status.nonfinite || isNonfinite (noise2 s.tables s.x s.y) } } :=
  (exec_noise s).trans (congrArg Host.Outcome.next (writeResult_noteUnseeded _ s))

/-- What NONFINITE reports: a NaN, or one of the two infinities (R206). -/
theorem isNonfinite_iff_nan_or_inf (a : F64) : isNonfinite a = true ↔ isNaN a = true ∨ ∃ neg, a = infOf neg := by
  rw [isNonfinite_iff, isNaN_iff]
  refine or_congr_right ⟨fun ⟨neg, h⟩ => ⟨neg, eq_infOf h⟩, ?_⟩
  rintro ⟨neg, rfl⟩
  exact ⟨neg, unpack_infOf neg⟩

/-- Settles O36: the update is that of a query, and what is not finite is a NaN or an infinity. -/
theorem noiseWritesItsSample : Obligations.NoiseWritesItsSample := by
  unfold Obligations.NoiseWritesItsSample
  exact fun s => ⟨exec_noise_eq_update s, isNonfinite_iff_nan_or_inf _⟩

/-! STATUS as the host reads it (R34) -/

/-- A read of STATUS is its word, with zeros above (R71). -/
theorem getLsbD_readReg_status (s : State) (k : Nat) :
    (readReg .status s).getLsbD k = s.status.word.getLsbD k := by
  rw [readReg, BitVec.getLsbD_setWidth]
  rcases Nat.lt_or_ge k 64 with hk | hk
  · rw [decide_eq_true hk, Bool.true_and]
  · rw [BitVec.getLsbD_of_ge _ k (by omega), Bool.and_false]

/-- A clearing write masks each of the four flags by its bit of the data. -/
theorem getLsbD_clear_word (st : Status) (d : Data) (k : Nat) :
    (st.clear d).word.getLsbD k = (st.word.getLsbD k && !(decide (1 ≤ k ∧ k ≤ 4) && d.getLsbD k)) := by
  rw [getLsbD_statusWord, getLsbD_statusWord]
  by_cases hk : k ≤ 4
  · interval_cases k <;> simp
  · repeat rw [if_neg (by omega)]
    exact (Bool.false_and _).symm

/-- Settles O54: by the bits of the word of STATUS, before and after a clearing write. -/
theorem statusBits : Obligations.StatusBits := by
  unfold Obligations.StatusBits
  refine ⟨fun s => ?_, fun s t d h => ?_⟩
  · simp only [getLsbD_readReg_status, getLsbD_statusWord]
    refine ⟨rfl, rfl, rfl, rfl, rfl, fun k hk => ?_⟩
    repeat rw [if_neg (by omega)]
  · obtain rfl := Host.Outcome.next.inj ((exec_wr_status d s).symm.trans h)
    refine ⟨rfl, fun k => ?_⟩
    rw [getLsbD_readReg_status, getLsbD_readReg_status]
    exact getLsbD_clear_word _ d k

/-! A read after a write (R36, R71, R191, R192) -/

/-- The 64-bit registers that hold storage. -/
def wideRegs : List Reg := [.x, .y, .amp, .freq, .pers, .lac]

theorem readReg_writeReg_wide {r : Reg} (hr : r ∈ wideRegs) (d : Data) (s : State) :
    readReg r (writeReg r d s) = d := by
  simp only [wideRegs, List.mem_cons, List.not_mem_nil, or_false] at hr
  obtain rfl | rfl | rfl | rfl | rfl | rfl := hr <;> rfl

theorem readReg_writeReg_word {r : Reg} (hr : r ∈ [Reg.seed, .octaves]) (d : Data) (s : State) :
    (readReg r (writeReg r d s)).toNat = d.toNat % 2 ^ 32 := by
  have low : ((d.setWidth 32).zeroExtend 64).toNat = d.toNat % 2 ^ 32 := by
    rw [BitVec.toNat_setWidth, BitVec.toNat_setWidth]
    omega
  simp only [List.mem_cons, List.not_mem_nil, or_false] at hr
  obtain rfl | rfl := hr <;> exact low

theorem readReg_writeReg_tblAddr (d : Data) (s : State) :
    (readReg .tblAddr (writeReg .tblAddr d s)).toNat = d.toNat % 2 ^ 9 := by
  change ((d.setWidth 9).zeroExtend 64).toNat = d.toNat % 2 ^ 9
  rw [BitVec.toNat_setWidth, BitVec.toNat_setWidth]
  omega

/-- The registers that hold storage the host may write. -/
def storageRegs : List Reg := [.x, .y, .amp, .freq, .pers, .lac, .seed, .octaves, .tblAddr]

/-- A write to a register of storage shows in no other read, but for the table window that TBL_ADDR selects. -/
theorem readReg_writeReg_other {r q : Reg} (hr : r ∈ storageRegs) (hq : q ≠ r) (hwin : r = .tblAddr → q ≠ .tblData)
    (d : Data) (s : State) : readReg q (writeReg r d s) = readReg q s := by
  simp only [storageRegs, List.mem_cons, List.not_mem_nil, or_false] at hr
  obtain rfl | rfl | rfl | rfl | rfl | rfl | rfl | rfl | rfl := hr <;> cases q <;>
    simp_all [readReg, writeReg, tableView]

/-- Settles O59: every register named is no CMD, so the write is `writeReg`. -/
theorem writeThenRead : Obligations.WriteThenRead := by
  unfold Obligations.WriteThenRead
  intro s t d r h
  by_cases hcmd : r = .cmd
  · subst hcmd
    simp
  · obtain rfl := Host.Outcome.next.inj ((exec_wr hcmd d s).symm.trans h)
    refine ⟨fun hr => readReg_writeReg_wide hr d s, fun hr => readReg_writeReg_word hr d s, ?_,
      fun hr q hq hwin => readReg_writeReg_other hr hq hwin d s⟩
    rintro rfl
    exact readReg_writeReg_tblAddr d s

/-! The table window (R43, R194) -/

/-- A read of TBL_DATA as a number: PM12's entry above PERM's. -/
theorem toNat_readReg_tblData (s : State) :
    (readReg .tblData s).toNat =
      256 * (readPm12 s.tables s.tblAddr.toNat).toNat + (readPerm s.tables s.tblAddr.toNat).toNat := by
  have hperm := (readPerm s.tables s.tblAddr.toNat).isLt
  have hpm12 := (readPm12 s.tables s.tblAddr.toNat).isLt
  rw [readReg, BitVec.toNat_setWidth, tableView, BitVec.toNat_append, ← Nat.shiftLeft_add_eq_or_of_lt hperm,
    Nat.shiftLeft_eq]
  omega

/-- Settles O60: the write keeps 9 bits, and the read is of the entry pair they select. -/
theorem tableWindow : Obligations.TableWindow := by
  unfold Obligations.TableWindow
  intro s t u N hwrite hread
  obtain rfl := Host.Outcome.next.inj ((exec_wr (r := .tblAddr) nofun N s).symm.trans hwrite)
  obtain rfl := Host.Outcome.next.inj ((exec_rd_of_readable .tblData _ rfl).symm.trans hread)
  have haddr : (writeReg .tblAddr N s).tblAddr.toNat = N.toNat % 512 := BitVec.toNat_setWidth 9 N
  refine ⟨_, rfl, ?_, writeReg_tables .tblAddr N s⟩
  rw [toNat_readReg_tblData, haddr, writeReg_tables]

/-! STATUS decides nothing but itself (R46, R202) -/

/-- `u` is `t` but for STATUS. -/
def SameButStatus (t u : State) : Prop := u = { t with status := u.status }

theorem sameButStatus_completeSeed (b : Shuffle) (s : State) (st : Status) :
    SameButStatus (completeSeed b s) (completeSeed b { s with status := st }) := by
  rw [completeSeed_eq, completeSeed_eq]
  rfl

theorem sameButStatus_query (v : F64) (s : State) (st : Status) :
    SameButStatus (writeResult v (noteUnseeded s)) (writeResult v (noteUnseeded { s with status := st })) := by
  rw [writeResult_noteUnseeded, writeResult_noteUnseeded]
  rfl

theorem sameButStatus_writeReg (r : Reg) (d : Data) (s : State) (st : Status) :
    SameButStatus (writeReg r d s) (writeReg r d { s with status := st }) := by
  cases r <;> rfl

/-- Of all reads, that of STATUS alone returns a value that depends on STATUS. -/
theorem readReg_withStatus {r : Reg} (hr : r ≠ .status) (s : State) (st : Status) :
    readReg r { s with status := st } = readReg r s := by
  cases r with
  | status => exact absurd rfl hr
  | _ => rfl

theorem sameButStatus_read (c : Bool) (f : Flag) (v : Option Data) (s : State) (st : Status) :
    SameButStatus { raiseIf c f s with readData := v }
      { raiseIf c f { s with status := st } with readData := v } := by
  cases c <;> rfl

/-- Two outcomes whose states are the same but for STATUS. -/
def OutcomesSameButStatus (o p : Host.Outcome State Fault Refusal) : Prop :=
  ∃ t u, o = .next t ∧ p = .next u ∧ SameButStatus t u

theorem exec_command_sameButStatus (c : Command) (s : State) (st : Status) :
    OutcomesSameButStatus (exec c.toInstr s) (exec c.toInstr { s with status := st }) := by
  cases c with
  | nop => exact ⟨_, _, exec_nop s, exec_nop _, rfl⟩
  | seed => exact ⟨_, _, exec_seed s, exec_seed _, sameButStatus_completeSeed _ s st⟩
  | noise => exact ⟨_, _, exec_noise s, exec_noise _, sameButStatus_query _ s st⟩
  | fbm => exact ⟨_, _, exec_fbm s, exec_fbm _, sameButStatus_query _ s st⟩

theorem exec_wr_sameButStatus (r : Reg) (d : Data) (s : State) (st : Status) :
    OutcomesSameButStatus (exec (.wr r d) s) (exec (.wr r d) { s with status := st }) := by
  by_cases hr : r = .cmd
  · subst hr
    by_cases hc : ∃ c : Command, d.setWidth 32 = encodeCommand c
    · obtain ⟨c, hc⟩ := hc
      rw [exec_wr_cmd_command hc, exec_wr_cmd_command hc]
      exact exec_command_sameButStatus c s st
    · have hres := not_exists.1 hc
      exact ⟨_, _, exec_wr_cmd_reserved hres s, exec_wr_cmd_reserved hres _, rfl⟩
  · exact ⟨_, _, exec_wr hr d s, exec_wr hr d _, sameButStatus_writeReg r d s st⟩

theorem exec_rd_sameButStatus {r : Reg} (hr : r ≠ .status) (s : State) (st : Status) :
    OutcomesSameButStatus (exec (.rd r) s) (exec (.rd r) { s with status := st }) := by
  rw [exec_rd, exec_rd, readReg_withStatus hr s st]
  exact ⟨_, _, rfl, rfl, sameButStatus_read _ _ _ s st⟩

/-- Settles O58, by the form of the instruction. -/
theorem flagsDoNotAffectResults : Obligations.FlagsDoNotAffectResults := by
  unfold Obligations.FlagsDoNotAffectResults
  intro i s t u st hi ht hu
  have hexec : OutcomesSameButStatus (exec i s) (exec i { s with status := st }) := by
    cases i with
    | nop => exact exec_command_sameButStatus .nop s st
    | seed => exact exec_command_sameButStatus .seed s st
    | noise => exact exec_command_sameButStatus .noise s st
    | fbm => exact exec_command_sameButStatus .fbm s st
    | wr r d => exact exec_wr_sameButStatus r d s st
    | rd r => exact exec_rd_sameButStatus (fun hr => hi (congrArg Instr.rd hr)) s st
  obtain ⟨t', u', ht', hu', hsame⟩ := hexec
  obtain rfl := Host.Outcome.next.inj (ht'.symm.trans ht)
  obtain rfl := Host.Outcome.next.inj (hu'.symm.trans hu)
  exact hsame

end Sys2Proof.Machine
end

section
/-! Sums and products (R15, R16, R23): each of finite operands is the exact value rounded once, zero included; the
special operands; what adding a zero leaves; and the constants by their values. -/

namespace Sys2Proof.Machine

/-! The sign bit -/

theorem getLsbD_63_of_unpack {a : F64} {s : Bool} {m e : Nat} (h : unpack a = .fin s m e) : a.getLsbD 63 = s := by
  obtain ⟨⟨hm, he, -⟩, ha⟩ := finite_of_unpack h
  rw [ha, getLsbD_withSign s (by omega) (by norm_num), if_pos rfl]

/-- The rounding keeps the sign, in a zero and in an infinity too. -/
theorem getLsbD_63_roundToF64 (neg : Bool) (m : Nat) (e : Int) : (roundToF64 neg m e).getLsbD 63 = neg := by
  have sign {mag : Nat} (h : mag < 2 ^ 63) : (withSign neg mag).getLsbD 63 = neg := by
    rw [getLsbD_withSign neg h (by norm_num), if_pos rfl]
  rcases Nat.eq_zero_or_pos m with rfl | hm
  · rw [roundToF64, if_pos rfl]
    exact sign (by norm_num)
  · obtain ⟨E, sig, -, -, -, -, h⟩ := roundToF64_cases neg hm e
    rw [h]
    split_ifs with hov
    · exact sign (by norm_num)
    · exact sign (by omega)

/-! A zero as a result -/

@[simp] theorem toRat_zeroOf (s : Bool) : toRat (zeroOf s) = 0 := by
  rw [toRat_fin (unpack_zeroOf s)]
  simp

/-- A zero of either sign is the real 0 rounded: no value is nearer, and any other that is as near is a zero. -/
theorem isRounded_zeroOf (s : Bool) : IsRounded 0 (zeroOf s) := by
  have hpos : |(0 : ℚ)| < overflowBound := by
    simpa using abs_toRat_lt_overflowBound (isFinite_zeroOf s)
  rw [IsRounded, if_pos hpos]
  refine ⟨isFinite_zeroOf s, fun b _ => ?_, fun b _ h => .inl ?_⟩
  · simp
  · simpa using h

/-! Sums -/

/-- The exact sum of two finite values in units of the smaller of their last places, as `fadd` forms it. -/
def exactSum (s : Bool) (m e : Nat) (t : Bool) (n f : Nat) : Int :=
  signed s (m * 2 ^ (e - min e f)) + signed t (n * 2 ^ (f - min e f))

theorem fadd_eq_round_exactSum {a b : F64} {s t : Bool} {m e n f : Nat} (ha : unpack a = .fin s m e)
    (hb : unpack b = .fin t n f) :
    fadd a b = if exactSum s m e t n f = 0 then zeroOf (s && t)
      else roundToF64 (decide (exactSum s m e t n f < 0)) (exactSum s m e t n f).natAbs (min e f : Nat) :=
  fadd_fin ha hb

theorem toRat_add_eq_exactSum {a b : F64} {s t : Bool} {m e n f : Nat} (ha : unpack a = .fin s m e)
    (hb : unpack b = .fin t n f) :
    toRat a + toRat b = (exactSum s m e t n f : ℚ) * 2 ^ min e f / 2 ^ 1074 := by
  have shift (s : Bool) (m : Nat) {e k : Nat} (hk : k ≤ e) :
      (signed s (m * 2 ^ e) : ℚ) = signed s (m * 2 ^ (e - k)) * 2 ^ k := by
    conv_lhs => rw [← Nat.sub_add_cancel hk, pow_add, ← mul_assoc, signed_mul]
    push_cast
    rfl
  rw [toRat_of_units (units_fin ha), toRat_of_units (units_fin hb), ← add_div, shift s m (min_le_left e f),
    shift t n (min_le_right e f), ← add_mul, exactSum]
  push_cast
  rfl

theorem exactSum_eq_zero_iff {a b : F64} {s t : Bool} {m e n f : Nat} (ha : unpack a = .fin s m e)
    (hb : unpack b = .fin t n f) : exactSum s m e t n f = 0 ↔ toRat a + toRat b = 0 := by
  rw [toRat_add_eq_exactSum ha hb, div_eq_zero_iff, or_iff_left (by positivity), mul_eq_zero,
    or_iff_left (by positivity), Int.cast_eq_zero]

/-- A sum of finite values is the exact sum rounded once (R15, R16). -/
theorem fadd_isRounded {a b : F64} (ha : isFinite a = true) (hb : isFinite b = true) :
    IsRounded (toRat a + toRat b) (fadd a b) := by
  obtain ⟨s, m, e, hua⟩ := (isFinite_iff a).1 ha
  obtain ⟨t, n, f, hub⟩ := (isFinite_iff b).1 hb
  rw [fadd_eq_round_exactSum hua hub]
  split_ifs with hz
  · rw [(exactSum_eq_zero_iff hua hub).1 hz]
    exact isRounded_zeroOf _
  · rw [toRat_add_eq_exactSum hua hub]
    have hround := roundToF64_isRounded (decide (exactSum s m e t n f < 0)) (Int.natAbs_pos.2 hz) (min e f : Nat)
    rwa [zpow_natCast, mul_div_assoc, ← mul_assoc, ← cast_signed, signed_natAbs, ← mul_div_assoc] at hround

/-- Settles O26: the rounding of the exact sum, and the sign of a sum of zero. -/
theorem faddIsCorrectlyRounded : Obligations.FaddIsCorrectlyRounded := by
  unfold Obligations.FaddIsCorrectlyRounded
  refine fun a b ha hb => ⟨fun _ => fadd_isRounded ha hb, fun hzero => ?_⟩
  obtain ⟨s, m, e, hua⟩ := (isFinite_iff a).1 ha
  obtain ⟨t, n, f, hub⟩ := (isFinite_iff b).1 hb
  rw [fadd_eq_round_exactSum hua hub, if_pos ((exactSum_eq_zero_iff hua hub).2 hzero), getLsbD_63_of_unpack hua,
    getLsbD_63_of_unpack hub]

/-! Products -/

/-- A product of finite values is the exact product rounded once (R15, R16). -/
theorem fmul_isRounded {a b : F64} (ha : isFinite a = true) (hb : isFinite b = true) :
    IsRounded (toRat a * toRat b) (fmul a b) := by
  obtain ⟨s, m, e, hua⟩ := (isFinite_iff a).1 ha
  obtain ⟨t, n, f, hub⟩ := (isFinite_iff b).1 hb
  rw [fmul_fin hua hub, toRat_mul_fin hua hub]
  rcases Nat.eq_zero_or_pos (m * n) with h0 | hpos
  · rw [h0, roundToF64, if_pos rfl, Nat.cast_zero, zero_mul, zero_div, mul_zero]
    exact isRounded_zeroOf _
  · exact roundToF64_isRounded _ hpos _

theorem eq_zero_of_toRat_eq_zero {a : F64} {s : Bool} {m e : Nat} (h : unpack a = .fin s m e) (h0 : toRat a = 0) :
    m = 0 := by
  have habs := abs_toRat_fin h
  rw [h0, abs_zero, eq_comm, div_eq_zero_iff, or_iff_left (by positivity), mul_eq_zero,
    or_iff_left (by positivity)] at habs
  exact_mod_cast habs

/-- Settles O27: the rounding of the exact product, whose sign the rounding keeps. -/
theorem fmulIsCorrectlyRounded : Obligations.FmulIsCorrectlyRounded := by
  unfold Obligations.FmulIsCorrectlyRounded
  intro a b ha hb
  obtain ⟨s, m, e, hua⟩ := (isFinite_iff a).1 ha
  obtain ⟨t, n, f, hub⟩ := (isFinite_iff b).1 hb
  rw [getLsbD_63_of_unpack hua, getLsbD_63_of_unpack hub]
  refine ⟨fmul_isRounded ha hb, ?_, fun hzero => ?_⟩
  · rw [fmul_fin hua hub, getLsbD_63_roundToF64]
  · have hmn : m * n = 0 := by
      rcases mul_eq_zero.1 hzero with h | h
      · rw [eq_zero_of_toRat_eq_zero hua h, Nat.zero_mul]
      · rw [eq_zero_of_toRat_eq_zero hub h, Nat.mul_zero]
    rw [fmul_fin hua hub, hmn, roundToF64, if_pos rfl]

/-! Special operands (R16) -/

/-- A finite value and its negation sum to +0.0: their signs differ. -/
theorem fadd_fneg_self {a : F64} (ha : isFinite a = true) : fadd a (fneg a) = zeroOf false := by
  obtain ⟨s, m, e, hua⟩ := (isFinite_iff a).1 ha
  have hsum : exactSum s m e (!s) m e = 0 := by
    cases s <;> simp [exactSum, signed]
  rw [fadd_eq_round_exactSum hua (unpack_fneg_fin hua), if_pos hsum, Bool.and_not_self]

/-- An infinity times a finite value other than zero. -/
theorem fmul_infOf_of_ne_zero (s : Bool) {b : F64} (hb : isFinite b = true) (hne : toRat b ≠ 0) :
    fmul (infOf s) b = infOf (s ^^ b.getLsbD 63) ∧ fmul b (infOf s) = infOf (s ^^ b.getLsbD 63) := by
  obtain ⟨t, n, f, hub⟩ := (isFinite_iff b).1 hb
  have hn : n ≠ 0 := by
    rintro rfl
    exact hne (by rw [toRat_fin hub]; simp)
  rw [fmul_infOf_fin s hub, fmul_fin_infOf hub s, if_neg hn, if_neg hn, getLsbD_63_of_unpack hub, Bool.xor_comm t s]
  exact ⟨rfl, rfl⟩

/-- Settles O28, by the kinds of the operands. -/
theorem specialOperands : Obligations.SpecialOperands := by
  unfold Obligations.SpecialOperands
  refine ⟨fun a b h => ?nan, fun a b => rfl, fun s t => ⟨?opposite, ?equal, fmul_infOf_infOf s t, ?zeroInf, ?infZero⟩,
    fun s b hb => ⟨?infLeft, ?infRight, fmul_infOf_of_ne_zero s hb⟩, fun a ha => fadd_fneg_self ha⟩
  case nan =>
    rw [isNaN_iff, isNaN_iff] at h
    rcases h with h | h
    · exact ⟨fadd_nan_left h b, fsub_nan_left h b, fmul_nan_left h b⟩
    · exact ⟨fadd_nan_right a h, fsub_nan_right a h, fmul_nan_right a h⟩
  case opposite => rw [fadd_infOf_infOf, if_neg (by simp)]
  case equal => rw [fadd_infOf_infOf, if_pos rfl]
  case zeroInf => rw [fmul_fin_infOf (unpack_zeroOf s), if_pos rfl]
  case infZero => rw [fmul_infOf_fin t (unpack_zeroOf s), if_pos rfl]
  case infLeft =>
    obtain ⟨t, n, f, hub⟩ := (isFinite_iff b).1 hb
    exact fadd_infOf_fin s hub
  case infRight =>
    obtain ⟨t, n, f, hub⟩ := (isFinite_iff b).1 hb
    exact fadd_fin_infOf hub s

/-! Adding a zero (R156, R162, R184) -/

theorem exactSum_comm (s : Bool) (m e : Nat) (t : Bool) (n f : Nat) :
    exactSum s m e t n f = exactSum t n f s m e := by
  rw [exactSum, exactSum, min_comm, add_comm]

/-- The order of two finite addends does not matter. -/
theorem fadd_comm_of_finite {a b : F64} (ha : isFinite a = true) (hb : isFinite b = true) : fadd a b = fadd b a := by
  obtain ⟨s, m, e, hua⟩ := (isFinite_iff a).1 ha
  obtain ⟨t, n, f, hub⟩ := (isFinite_iff b).1 hb
  rw [fadd_eq_round_exactSum hua hub, fadd_eq_round_exactSum hub hua, exactSum_comm, Bool.and_comm, min_comm]

/-- A zero of either sign on either side leaves a value that is neither zero nor NaN. -/
theorem fadd_zeroOf {a : F64} (hnan : isNaN a = false) (hpos : a ≠ zeroOf false) (hneg : a ≠ zeroOf true) (s : Bool) :
    fadd a (zeroOf s) = a ∧ fadd (zeroOf s) a = a := by
  cases hu : unpack a with
  | nan => exact absurd hu ((isNaN_eq_false_iff a).1 hnan)
  | inf t =>
    obtain rfl := eq_infOf hu
    exact ⟨fadd_infOf_fin t (unpack_zeroOf s), fadd_fin_infOf (unpack_zeroOf s) t⟩
  | fin t n f =>
    rcases Nat.eq_zero_or_pos n with rfl | hn
    · obtain rfl := eq_zeroOf_of_unpack hu
      cases t with
      | false => exact absurd rfl hpos
      | true => exact absurd rfl hneg
    · have hleft := fadd_zeroOf_fin s hu hn
      exact ⟨(fadd_comm_of_finite (isFinite_of_unpack hu) (isFinite_zeroOf s)).trans hleft, hleft⟩

theorem fneg_zeroOf (s : Bool) : fneg (zeroOf s) = zeroOf (!s) := by cases s <;> decide

/-- Subtracting +0.0 is adding −0.0, which leaves the zeros too. -/
theorem fsub_zeroOf_false {a : F64} (hnan : isNaN a = false) : fsub a (zeroOf false) = a := by
  rw [fsub, fneg_zeroOf]
  by_cases hpos : a = zeroOf false
  · rw [hpos, Bool.not_false, fadd_zeroOf_zeroOf, Bool.false_and]
  · by_cases hneg : a = zeroOf true
    · rw [hneg, Bool.not_false, fadd_zeroOf_zeroOf, Bool.true_and]
    · exact (fadd_zeroOf hnan hpos hneg true).1

/-- Settles O35: the exact sum with a zero is the value itself, and two zeros sum by their signs. -/
theorem addingZeroKeepsTheValue : Obligations.AddingZeroKeepsTheValue := by
  unfold Obligations.AddingZeroKeepsTheValue
  have hzero : bitToF64 false = zeroOf false := by decide
  refine ⟨fun a s hnan hpos hneg => fadd_zeroOf hnan hpos hneg s, fun a hnan => ?_, fadd_zeroOf_zeroOf true false,
    fadd_zeroOf_zeroOf true true⟩
  rw [hzero]
  exact fsub_zeroOf_false hnan

/-! The constants (R23) -/

/-- The value of a pattern whose last place is `2^-k`. -/
theorem toRat_of_unpack_pos {a : F64} {m e : Nat} (k : Nat) (h : unpack a = .fin false m e) (hk : e + k = 1074) :
    toRat a = (m : ℚ) / 2 ^ k := by
  rw [toRat_fin h, ← hk, pow_add, signQ, if_neg Bool.false_ne_true, one_mul, mul_comm (m : ℚ),
    mul_div_mul_left _ _ (by positivity)]

theorem toRat_cSQRT3 : toRat cSQRT3 = 0x1BB67AE8584CAA / 2 ^ 52 :=
  toRat_of_unpack_pos 52 (e := 1022) (by decide) rfl

theorem toRat_cF2 : toRat cF2 = 0x176CF5D0B09954 / 2 ^ 54 := toRat_of_unpack_pos 54 unpack_cF2 rfl

theorem toRat_cG2 : toRat cG2 = 0x1B0CB174DF99C8 / 2 ^ 55 := toRat_of_unpack_pos 55 unpack_cG2 rfl

theorem toRat_cG2X2 : toRat cG2X2 = 0x1B0CB174DF99C8 / 2 ^ 54 :=
  toRat_of_unpack_pos 54 (e := 1020) (by decide) rfl

theorem toRat_cHALF : toRat cHALF = 1 / 2 := by
  rw [toRat_of_unpack_pos 53 (m := 2 ^ 52) (e := 1021) (by decide) rfl]
  norm_num

theorem toRat_cSCALE : toRat cSCALE = 70 := by
  rw [toRat_of_unpack_pos 46 (m := 0x11800000000000) (e := 1028) (by decide) rfl]
  norm_num

/-- The difference that `F2` is half of. -/
theorem toRat_fsub_cSQRT3_cONE : toRat (fsub cSQRT3 cONE) = 0x176CF5D0B09954 / 2 ^ 53 :=
  toRat_of_unpack_pos 53 (e := 1021) (by decide +kernel) rfl

/-- The difference that `G2` is a sixth of. -/
theorem toRat_fsub_three_cSQRT3 : toRat (fsub 0x4008000000000000 cSQRT3) = 0x14498517A7B356 / 2 ^ 52 :=
  toRat_of_unpack_pos 52 (e := 1022) (by decide +kernel) rfl

/-- Settles O34: the constants and the two differences by their values. -/
theorem constantsAreTheStatedExpressions : Obligations.ConstantsAreTheStatedExpressions := by
  unfold Obligations.ConstantsAreTheStatedExpressions
  rw [toRat_cSQRT3, toRat_cF2, toRat_cG2, toRat_cG2X2, toRat_fsub_cSQRT3_cONE, toRat_fsub_three_cSQRT3]
  refine ⟨by norm_num, by norm_num, by norm_num, by norm_num, by decide +kernel, by norm_num, toRat_cHALF, toRat_cONE,
    toRat_cSCALE, rfl, rfl, rfl, rfl, rfl⟩

end Sys2Proof.Machine
end

section
/-! The sample of NOISE: what it reads of the tables (R90, R158), its zeros at the points `(k, -k)` (R169), and its
bound (R170) by bounds through the rounding. -/

namespace Sys2Proof.Machine

open Sys2Proof (Instr Command)

/-! The table entries a corner reads (R90, R158) -/

/-- The PM12 index of a corner stays in the table: at most 255 + 1 + 255. -/
theorem hashCorner_index_lt (ii : BitVec 8) {di : Nat} (hdi : di ≤ 1) (p : BitVec 8) :
    ii.toNat + di + p.toNat < 512 := by
  have hii := ii.isLt
  have hp := p.isLt
  omega

/-- A corner reads PERM at 0 to 256 and PM12 at 0 to 511. -/
theorem hashCorner_congr {tb tc : Tables} (hperm : ∀ n ≤ 256, readPerm tb n = readPerm tc n)
    (hpm12 : ∀ n < 512, readPm12 tb n = readPm12 tc n) (ii jj : BitVec 8) {di dj : Nat} (hdi : di ≤ 1) (hdj : dj ≤ 1) :
    hashCorner tb ii jj di dj = hashCorner tc ii jj di dj := by
  have hjj := jj.isLt
  rw [hashCorner, hashCorner, hperm _ (by omega), hpm12 _ (hashCorner_index_lt ii hdi _)]

/-- Settles O43: the sample reads the tables through the three corners only. -/
theorem kernelReadsTableIndicesOnly : Obligations.KernelReadsTableIndicesOnly := by
  unfold Obligations.KernelReadsTableIndicesOnly
  intro tb tc hperm hpm12 x y
  have corner_congr (ii jj : BitVec 8) {di dj : Nat} := hashCorner_congr (di := di) (dj := dj) hperm hpm12 ii jj
  simp only [noise2]
  rw [corner_congr _ _ (Nat.zero_le 1) (Nat.zero_le 1), corner_congr _ _ (Bool.toNat_le _) (Bool.toNat_le _),
    corner_congr _ _ le_rfl le_rfl]

/-- Settles O45: the index read is in the table, where PM12 is PERM modulo 12. -/
theorem gradientIndexIsBelowTwelve : Obligations.GradientIndexIsBelowTwelve := by
  unfold Obligations.GradientIndexIsBelowTwelve
  intro tb h ii jj di dj hdi _
  rw [hashCorner, h.pm12 _ (hashCorner_index_lt ii hdi _)]
  exact Nat.mod_lt _ (by norm_num)

/-! Bounds through the rounding: a bound that a finite pattern holds is a bound of the rounded value (R15) -/

/-- Some finite pattern has the value `q`. -/
def Held (q : ℚ) : Prop := ∃ c : F64, isFinite c = true ∧ toRat c = q

/-- A whole number below 2^53 over a power of two is held. -/
theorem held_of_eq {q : ℚ} (m k : Nat) (hm : m < 2 ^ 53) (hk : k ≤ 1074) (hq : q = m / 2 ^ k) : Held q := by
  rw [hq]
  exact ⟨_, toRat_roundToF64_div_two_pow hm (Nat.sub_add_cancel hk)⟩

theorem isNaN_eq_false_of_finite {a : F64} (h : isFinite a = true) : isNaN a = false := by
  obtain ⟨s, m, e, hu⟩ := (isFinite_iff a).1 h
  exact (isNaN_eq_false_iff a).2 (by simp [hu])

/-- The negation of a finite value (R18). -/
theorem fneg_value {a : F64} (h : isFinite a = true) : isFinite (fneg a) = true ∧ toRat (fneg a) = -toRat a := by
  obtain ⟨-, hneg, hfin⟩ := negationFlipsTheSign.1 a (isNaN_eq_false_of_finite h)
  exact ⟨hfin.trans h, hneg⟩

theorem held_neg {q : ℚ} (h : Held q) : Held (-q) := by
  obtain ⟨c, hc, rfl⟩ := h
  exact ⟨fneg c, fneg_value hc⟩

theorem abs_lt_overflowBound_of_held {q : ℚ} (h : Held q) : |q| < overflowBound := by
  obtain ⟨c, hc, rfl⟩ := h
  exact abs_toRat_lt_overflowBound hc

/-- A held value that is not below the exact one is not below the nearest one. -/
theorem isNearest_le {p q : ℚ} {r : F64} (h : IsNearest q r) (hp : Held p) (hq : q ≤ p) : toRat r ≤ p := by
  obtain ⟨c, hc, rfl⟩ := hp
  by_contra hlt
  have hdist := h.nearest c hc
  rw [abs_of_nonneg (by linarith), abs_of_nonneg (by linarith)] at hdist
  linarith

theorem isNearest_ge {p q : ℚ} {r : F64} (h : IsNearest q r) (hp : Held p) (hq : p ≤ q) : p ≤ toRat r := by
  obtain ⟨c, hc, rfl⟩ := hp
  by_contra hlt
  have hdist := h.nearest c hc
  rw [abs_of_nonpos (by linarith), abs_of_nonpos (by linarith)] at hdist
  linarith

/-- `a` is at most `q`, if it is no NaN. -/
def AtMost (q : ℚ) (a : F64) : Prop := isNaN a = true ∨ a = infOf true ∨ (isFinite a = true ∧ toRat a ≤ q)

/-- `a` is at least `q`, if it is no NaN. -/
def AtLeast (q : ℚ) (a : F64) : Prop := isNaN a = true ∨ a = infOf false ∨ (isFinite a = true ∧ q ≤ toRat a)

/-- `a` is finite and of magnitude `q` at most. -/
def BoundedBy (q : ℚ) (a : F64) : Prop := isFinite a = true ∧ |toRat a| ≤ q

theorem atMost_of_isRounded {p q : ℚ} {r : F64} (h : IsRounded q r) (hp : Held p) (hq : q ≤ p) : AtMost p r := by
  have hbound := abs_lt.1 (abs_lt_overflowBound_of_held hp)
  rw [IsRounded] at h
  split_ifs at h with hov
  · exact .inr (.inr ⟨h.finite, isNearest_le h hp hq⟩)
  · have hneg : q < 0 := by
      by_contra hpos
      exact hov (abs_lt.2 ⟨by linarith, by linarith⟩)
    rw [decide_eq_true hneg] at h
    exact .inr (.inl h)

theorem atLeast_of_isRounded {p q : ℚ} {r : F64} (h : IsRounded q r) (hp : Held p) (hq : p ≤ q) : AtLeast p r := by
  have hbound := abs_lt.1 (abs_lt_overflowBound_of_held hp)
  rw [IsRounded] at h
  split_ifs at h with hov
  · exact .inr (.inr ⟨h.finite, isNearest_ge h hp hq⟩)
  · have hpos : ¬ q < 0 := fun hneg => hov (abs_lt.2 ⟨by linarith, by linarith⟩)
    rw [decide_eq_false hpos] at h
    exact .inr (.inl h)

theorem boundedBy_of_isRounded {p q : ℚ} {r : F64} (h : IsRounded q r) (hp : Held p) (hq : |q| ≤ p) :
    BoundedBy p r := by
  obtain ⟨hlo, hhi⟩ := abs_le.1 hq
  have hbound := (le_abs_self p).trans_lt (abs_lt_overflowBound_of_held hp)
  rw [IsRounded, if_pos (hq.trans_lt hbound)] at h
  exact ⟨h.finite, abs_le.2 ⟨isNearest_ge h (held_neg hp) hlo, isNearest_le h hp hhi⟩⟩

/-! The bounds of sums, negations and products -/

theorem boundedBy_cZERO {q : ℚ} (hq : 0 ≤ q) : BoundedBy q cZERO := by
  have hzero : |toRat (zeroOf false)| ≤ q := by simpa using hq
  exact ⟨isFinite_zeroOf false, hzero⟩

theorem boundedBy_fneg {q : ℚ} {a : F64} (ha : BoundedBy q a) : BoundedBy q (fneg a) := by
  obtain ⟨hfin, habs⟩ := ha
  obtain ⟨hfin', hneg⟩ := fneg_value hfin
  exact ⟨hfin', by rwa [hneg, abs_neg]⟩

theorem boundedBy_fadd {p q r : ℚ} {a b : F64} (ha : BoundedBy p a) (hb : BoundedBy q b) (hr : Held r)
    (h : p + q ≤ r) : BoundedBy r (fadd a b) := by
  obtain ⟨ha, hap⟩ := ha
  obtain ⟨hb, hbq⟩ := hb
  exact boundedBy_of_isRounded (fadd_isRounded ha hb) hr ((abs_add_le _ _).trans ((add_le_add hap hbq).trans h))

theorem boundedBy_fmul {p q r : ℚ} {a b : F64} (ha : BoundedBy p a) (hb : BoundedBy q b) (hr : Held r)
    (h : p * q ≤ r) : BoundedBy r (fmul a b) := by
  obtain ⟨ha, hap⟩ := ha
  obtain ⟨hb, hbq⟩ := hb
  refine boundedBy_of_isRounded (fmul_isRounded ha hb) hr ?_
  rw [abs_mul]
  exact (mul_le_mul hap hbq (abs_nonneg _) ((abs_nonneg _).trans hap)).trans h

/-- A difference is at most the difference of the bounds. -/
theorem atMost_fsub {p q : ℚ} {a b : F64} (ha : AtMost p a) (hb : AtLeast q b) (h : Held (p - q)) :
    AtMost (p - q) (fsub a b) := by
  rcases hb with hb | rfl | ⟨hb, hqb⟩
  · exact .inl (by rw [fsub_nan_right a ((isNaN_iff b).1 hb)]; decide)
  · have hinf : isFinite (infOf true) = false := isFinite_infOf true
    rw [fsub, fneg_infOf]
    rcases fadd_nonfinite_right a hinf with hsum | hsum
    · exact .inr (.inl hsum)
    · exact .inl (by rw [Bool.not_false, hsum]; decide)
  · obtain ⟨hfin, hneg⟩ := fneg_value hb
    rcases ha with ha | rfl | ⟨ha, hap⟩
    · exact .inl (by rw [fsub_nan_left ((isNaN_iff a).1 ha)]; decide)
    · obtain ⟨t, n, f, hu⟩ := (isFinite_iff _).1 hfin
      exact .inr (.inl (fadd_infOf_fin true hu))
    · refine atMost_of_isRounded (fadd_isRounded ha hfin) h ?_
      rw [hneg]
      linarith

/-- A square is at least the square of a bound of the operand from below; an infinite operand has an infinite square. -/
theorem atLeast_fmul_self {q : ℚ} {a : F64} (hq : Held q) (h : isFinite a = true → q ≤ toRat a * toRat a) :
    AtLeast q (fmul a a) := by
  cases hu : unpack a with
  | nan => exact .inl (by rw [fmul_nan_left hu]; decide)
  | inf s =>
    rw [eq_infOf hu, fmul_infOf_infOf, Bool.xor_self]
    exact .inr (.inl rfl)
  | fin s m e =>
    have ha := isFinite_of_unpack hu
    exact atLeast_of_isRounded (fmul_isRounded ha ha) hq (h ha)

/-! The bounds against the comparison -/

/-- A value bounded below `b` compares less than it, unless it is a NaN. -/
theorem flt_of_atMost {q : ℚ} {a b : F64} (ha : AtMost q a) (hb : isFinite b = true) (hq : q < toRat b) :
    isNaN a = true ∨ flt a b = true := by
  have hnan := isNaN_eq_false_of_finite hb
  rcases ha with ha | rfl | ⟨ha, hle⟩
  · exact .inl ha
  · refine .inr ((lessThanIsTheOrderOfValues _ b).1.2 ⟨isNaN_infOf true, hnan, .inr (.inl ⟨rfl, ?_⟩)⟩)
    rintro rfl
    simp at hb
  · exact .inr ((lessThanIsTheOrderOfValues a b).1.2
      ⟨isNaN_eq_false_of_finite ha, hnan, .inl ⟨ha, hb, hle.trans_lt hq⟩⟩)

/-- A finite `b` is not less than what it bounds from above. -/
theorem not_flt_of_atMost {a b : F64} (hb : isFinite b = true) (ha : AtMost (toRat b) a) : flt b a = false := by
  obtain ⟨t, n, f, hub⟩ := (isFinite_iff b).1 hb
  rcases ha with ha | rfl | ⟨ha, hle⟩
  · exact flt_nan_right b ((isNaN_iff a).1 ha)
  · exact flt_fin_infOf hub true
  · obtain ⟨s, m, e, hua⟩ := (isFinite_iff a).1 ha
    exact Bool.eq_false_iff.2 fun h => hle.not_gt ((flt_fin hub hua).1 h)

/-! The falloff (R160) -/

theorem isFinite_cHALF : isFinite cHALF = true := by decide

theorem atMost_cHALF : AtMost (1 / 2) cHALF := .inr (.inr ⟨isFinite_cHALF, toRat_cHALF.le⟩)

/-- The falloff is at most a half less the bounds of the two squares. -/
theorem atMost_falloff {p q : ℚ} {xc yc : F64} (hx : AtLeast p (fmul xc xc)) (hy : AtLeast q (fmul yc yc))
    (hp : Held (1 / 2 - p)) (hq : Held (1 / 2 - p - q)) : AtMost (1 / 2 - p - q) (falloff xc yc) :=
  atMost_fsub (atMost_fsub atMost_cHALF hx hp) hy hq

theorem held_zero : Held 0 := held_of_eq 0 0 (by norm_num) (by norm_num) (by norm_num)
theorem held_half : Held (1 / 2) := held_of_eq 1 1 (by norm_num) (by norm_num) (by norm_num)
theorem held_nine_sixteenths : Held (9 / 16) := held_of_eq 9 4 (by norm_num) (by norm_num) (by norm_num)

/-- The falloff of an offset of 3/4 or more. -/
theorem held_large_falloff : Held (-(1 / 16)) :=
  held_neg (held_of_eq 1 4 (by norm_num) (by norm_num) (by norm_num))

theorem atLeast_square (a : F64) : AtLeast 0 (fmul a a) :=
  atLeast_fmul_self held_zero fun _ => mul_self_nonneg _

/-- The square of an offset that is not below 3/4. -/
theorem atLeast_square_of_large {a : F64} (h : ¬ BoundedBy (3 / 4) a) : AtLeast (9 / 16) (fmul a a) := by
  refine atLeast_fmul_self held_nine_sixteenths fun ha => ?_
  have hlarge : 3 / 4 < |toRat a| := not_le.1 fun hle => h ⟨ha, hle⟩
  rw [← abs_mul_abs_self]
  nlinarith

theorem atMost_falloff_half (xc yc : F64) : AtMost (1 / 2) (falloff xc yc) := by
  have h := atMost_falloff (atLeast_square xc) (atLeast_square yc)
  simp only [sub_zero] at h
  exact h held_half held_half

/-- An offset of 3/4 or more makes the falloff negative. -/
theorem atMost_falloff_of_large {xc yc : F64} (h : ¬ (BoundedBy (3 / 4) xc ∧ BoundedBy (3 / 4) yc)) :
    AtMost (-(1 / 16)) (falloff xc yc) := by
  have held : Held (1 / 2 - 9 / 16) := by convert held_large_falloff using 1; norm_num
  rcases not_and_or.1 h with hx | hy
  · have hf := atMost_falloff (atLeast_square_of_large hx) (atLeast_square yc) held (by rwa [sub_zero])
    convert hf using 1
    norm_num
  · have hf := atMost_falloff (atLeast_square xc) (atLeast_square_of_large hy) (by rw [sub_zero]; exact held_half)
      (by rwa [sub_zero])
    convert hf using 1
    norm_num

/-! The contribution of a corner (R164) -/

theorem corner_below {xc yc : F64} (h : flt (falloff xc yc) cZERO = true) (gi : BitVec 4) :
    corner gi xc yc = cZERO := if_pos h

theorem corner_product {xc yc : F64} (h : flt (falloff xc yc) cZERO = false) (gi : BitVec 4) :
    corner gi xc yc =
      fmul (fmul (fmul (falloff xc yc) (falloff xc yc)) (fmul (falloff xc yc) (falloff xc yc))) (dot gi xc yc) :=
  if_neg (Bool.eq_false_iff.1 h)

/-- Settles O38: the two branches and the NaN by the lemmas of each; a half less two squares is at most a half. -/
theorem cornerContribution : Obligations.CornerContribution := by
  unfold Obligations.CornerContribution
  intro gi xc yc
  refine ⟨fun h => corner_below h gi, fun h => corner_product h gi, fun h => corner_nan ((isNaN_iff _).1 h) gi,
    not_flt_of_atMost isFinite_cHALF ?_, fun hx hy => ?_⟩
  · rw [toRat_cHALF]
    exact atMost_falloff_half xc yc
  · rw [hx, hy]
    decide +kernel

theorem boundedBy_signed {q : ℚ} {a : F64} (c : Bool) (ha : BoundedBy q a) : BoundedBy q (if c then fneg a else a) := by
  cases c with
  | false => exact ha
  | true => exact boundedBy_fneg ha

theorem boundedBy_dot {xc yc : F64} (hx : BoundedBy (3 / 4) xc) (hy : BoundedBy (3 / 4) yc) (gi : BitVec 4) :
    BoundedBy (3 / 2) (dot gi xc yc) := by
  have hu : BoundedBy (3 / 4) (if gi.toNat < 8 then xc else yc) := by split_ifs <;> assumption
  have hv : BoundedBy (3 / 4) (if gi.toNat < 4 then yc else cZERO) := by
    split_ifs
    · exact hy
    · exact boundedBy_cZERO (by norm_num)
  exact boundedBy_fadd (boundedBy_signed _ hu) (boundedBy_signed _ hv)
    (held_of_eq 3 1 (by norm_num) (by norm_num) (by norm_num)) (by norm_num)

/-- A falloff that is neither a NaN nor below zero is at most a half in magnitude. -/
theorem boundedBy_falloff {xc yc : F64} (hnan : isNaN (falloff xc yc) = false)
    (hneg : flt (falloff xc yc) cZERO = false) : BoundedBy (1 / 2) (falloff xc yc) := by
  rcases atMost_falloff_half xc yc with h | h | ⟨hfin, hle⟩
  · simp [h] at hnan
  · rw [h] at hneg
    exact absurd hneg (by decide)
  · obtain ⟨s, m, e, hu⟩ := (isFinite_iff _).1 hfin
    have hnonneg : 0 ≤ toRat (falloff xc yc) := by
      by_contra hlt
      have hbelow : toRat (falloff xc yc) < toRat (zeroOf false) := by rw [toRat_zeroOf]; exact not_le.1 hlt
      exact Bool.eq_false_iff.1 hneg ((flt_fin hu (unpack_zeroOf false)).2 hbelow)
    exact ⟨hfin, abs_le.2 ⟨by linarith, hle⟩⟩

/-- Then both offsets are below 3/4. -/
theorem boundedBy_offsets {xc yc : F64} (hnan : isNaN (falloff xc yc) = false)
    (hneg : flt (falloff xc yc) cZERO = false) : BoundedBy (3 / 4) xc ∧ BoundedBy (3 / 4) yc := by
  by_contra hlarge
  have hzero : (-(1 / 16) : ℚ) < toRat (zeroOf false) := by rw [toRat_zeroOf]; norm_num
  rcases flt_of_atMost (atMost_falloff_of_large hlarge) (isFinite_zeroOf false) hzero with h | h
  · exact Bool.eq_false_iff.1 hnan h
  · exact Bool.eq_false_iff.1 hneg h

/-- A contribution is a NaN or of magnitude 3/32 at most: a half to the fourth times 3/2. -/
theorem corner_nan_or_boundedBy (gi : BitVec 4) (xc yc : F64) :
    corner gi xc yc = canonNaN ∨ BoundedBy (3 / 32) (corner gi xc yc) := by
  cases hnan : isNaN (falloff xc yc) with
  | true => exact .inl (corner_nan ((isNaN_iff _).1 hnan) gi)
  | false =>
    cases hneg : flt (falloff xc yc) cZERO with
    | true =>
      rw [corner_below hneg]
      exact .inr (boundedBy_cZERO (by norm_num))
    | false =>
      obtain ⟨hx, hy⟩ := boundedBy_offsets hnan hneg
      have htc := boundedBy_falloff hnan hneg
      have ht2 := boundedBy_fmul htc htc (held_of_eq (q := 1 / 4) 1 2 (by norm_num) (by norm_num) (by norm_num))
        (by norm_num)
      have ht4 := boundedBy_fmul ht2 ht2 (held_of_eq (q := 1 / 16) 1 4 (by norm_num) (by norm_num) (by norm_num))
        (by norm_num)
      rw [corner_product hneg]
      exact .inr (boundedBy_fmul ht4 (boundedBy_dot hx hy gi)
        (held_of_eq 3 5 (by norm_num) (by norm_num) (by norm_num)) (by norm_num))

/-! The sample (R165, R170) -/

/-- The scaled sum of three contributions is a NaN or of magnitude 70 × 9/32 at most. -/
theorem scaledSum_nan_or_boundedBy {n0 n1 n2 : F64} (h0 : n0 = canonNaN ∨ BoundedBy (3 / 32) n0)
    (h1 : n1 = canonNaN ∨ BoundedBy (3 / 32) n1) (h2 : n2 = canonNaN ∨ BoundedBy (3 / 32) n2) :
    fmul cSCALE (fadd (fadd n0 n1) n2) = canonNaN ∨ BoundedBy (315 / 16) (fmul cSCALE (fadd (fadd n0 n1) n2)) := by
  rcases h0 with rfl | h0
  · simp only [fadd_nan_left unpack_canonNaN, fmul_nan_right cSCALE unpack_canonNaN, true_or]
  rcases h1 with rfl | h1
  · simp only [fadd_nan_right n0 unpack_canonNaN, fadd_nan_left unpack_canonNaN,
      fmul_nan_right cSCALE unpack_canonNaN, true_or]
  rcases h2 with rfl | h2
  · simp only [fadd_nan_right _ unpack_canonNaN, fmul_nan_right cSCALE unpack_canonNaN, true_or]
  have hscale : BoundedBy 70 cSCALE := ⟨by decide, by rw [toRat_cSCALE]; norm_num⟩
  have h01 := boundedBy_fadd h0 h1 (held_of_eq (q := 3 / 16) 3 4 (by norm_num) (by norm_num) (by norm_num))
    (by norm_num)
  have h012 := boundedBy_fadd h01 h2 (held_of_eq (q := 9 / 32) 9 5 (by norm_num) (by norm_num) (by norm_num))
    (by norm_num)
  exact .inr (boundedBy_fmul hscale h012 (held_of_eq 315 4 (by norm_num) (by norm_num) (by norm_num)) (by norm_num))

theorem noise2_nan_or_boundedBy (tb : Tables) (x y : F64) :
    noise2 tb x y = canonNaN ∨ BoundedBy (315 / 16) (noise2 tb x y) :=
  scaledSum_nan_or_boundedBy (corner_nan_or_boundedBy _ _ _) (corner_nan_or_boundedBy _ _ _)
    (corner_nan_or_boundedBy _ _ _)

/-- Settles O42: the sample is a NaN or bounded, and an infinity is neither. -/
theorem sampleIsBounded : Obligations.SampleIsBounded := by
  unfold Obligations.SampleIsBounded
  refine ⟨fun tb x y hnan => ?_, fun i s t hi h neg hinf => ?_⟩
  · rcases noise2_nan_or_boundedBy tb x y with h | ⟨hfin, hle⟩
    · rw [h] at hnan
      exact absurd hnan (by decide)
    · exact ⟨hfin, hle.trans_lt (by norm_num)⟩
  · rw [result_of_runs_noise hi h] at hinf
    rcases noise2_nan_or_boundedBy s.tables s.x s.y with hn | ⟨hfin, -⟩
    · have := isNaN_infOf neg
      rw [← hinf, hn] at this
      exact absurd this (by decide)
    · rw [hinf, isFinite_infOf] at hfin
      cases hfin

/-! The zeros at `(k, -k)` (R169) -/

/-- A finite value other than zero has one pattern: rounding gives it back. -/
theorem toRat_inj_of_ne_zero {a b : F64} (ha : isFinite a = true) (hb : isFinite b = true) (h : toRat a = toRat b)
    (hne : toRat a ≠ 0) : a = b := by
  have pattern {c : F64} (hc : isFinite c = true) (hne : toRat c ≠ 0) :
      ∃ z, units c = some z ∧ roundToF64 (decide (z < 0)) z.natAbs 0 = c := by
    obtain ⟨s, m, e, hu⟩ := (isFinite_iff c).1 hc
    have hm : 0 < m := Nat.pos_of_ne_zero fun h0 => hne (by rw [toRat_fin hu, h0]; simp)
    have hsign : decide (signed s (m * 2 ^ e) < 0) = s := by
      simp [signed_neg_iff s (show 0 < m * 2 ^ e by positivity)]
    have hround := roundToF64_self hu hm e
    rw [sub_self] at hround
    exact ⟨_, units_fin hu, by rw [hsign, natAbs_signed, hround]⟩
  obtain ⟨z, hz, hroundz⟩ := pattern ha hne
  obtain ⟨w, hw, hroundw⟩ := pattern hb (h ▸ hne)
  have hzw : z = w := by
    rw [toRat_of_units hz, toRat_of_units hw, div_left_inj' (by positivity)] at h
    exact_mod_cast h
  rw [← hroundz, ← hroundw, hzw]

/-- The floor leaves an integral value's pattern. -/
theorem ffloor_of_integral {a : F64} {n : ℤ} (ha : isFinite a = true) (hn : toRat a = n) : ffloor a = a := by
  obtain ⟨s, m, e, hu⟩ := (isFinite_iff a).1 ha
  by_cases hzero : toRat a = 0
  · obtain rfl := eq_zero_of_toRat_eq_zero hu hzero
    exact ffloor_zero hu
  · obtain ⟨hfin, hval⟩ := ffloor_value ha
    have heq : toRat (ffloor a) = toRat a := by rw [hval, hn, Int.floor_intCast]
    exact toRat_inj_of_ne_zero hfin ha heq (heq ▸ hzero)

/-- At `(k, -k)` with `k` integral the skew and the unskew are zero, so the point is its own cell origin. -/
theorem toLattice_antidiagonal {k : F64} {n : ℤ} (hk : isFinite k = true) (hn : toRat k = n) :
    ∃ u v, (toLattice k (fneg k)).x0 = zeroOf u ∧ (toLattice k (fneg k)).y0 = zeroOf v := by
  obtain ⟨s, m, e, hu⟩ := (isFinite_iff k).1 hk
  have hun := unpack_fneg_fin hu
  rcases Nat.eq_zero_or_pos m with rfl | hm
  · obtain rfl := eq_zeroOf_of_unpack hu
    cases s with
    | false => exact ⟨false, true, by decide +kernel, by decide +kernel⟩
    | true => exact ⟨true, false, by decide +kernel, by decide +kernel⟩
  · obtain ⟨hneg, hnval⟩ := fneg_value hk
    rw [hn, ← Int.cast_neg] at hnval
    have ne_zero {a : F64} {t : Bool} (ha : unpack a = .fin t m e) (z : Bool) : a ≠ zeroOf z := by
      rintro rfl
      rw [unpack_zeroOf] at ha
      injection ha with _ h0 _
      omega
    have hskew : fmul (zeroOf false) cF2 = zeroOf false := by decide
    have hunskew : fmul (zeroOf false) cG2 = zeroOf false := by decide
    have hnan := isNaN_eq_false_of_finite hk
    have hnan' := isNaN_eq_false_of_finite hneg
    have hsum := fadd_fneg_self hk
    have hi := ffloor_of_integral hk hn
    have hj := ffloor_of_integral hneg hnval
    have hx := (fadd_zeroOf hnan (ne_zero hu _) (ne_zero hu _) false).1
    have hy := (fadd_zeroOf hnan' (ne_zero hun _) (ne_zero hun _) false).1
    refine ⟨false, false, ?_, ?_⟩
    · simp only [toLattice, hsum, hskew, hx, hy, hi, hj, hunskew, fsub_zeroOf_false hnan]
      exact hsum
    · simp only [toLattice, hsum, hskew, hx, hy, hi, hj, hunskew, fsub_zeroOf_false hnan']
      exact fadd_fneg_self hneg

/-! The three corners where both offsets of the origin are zeros; each is evaluated for the four pairs of signs -/

/-- Two zeros compare equal, so the middle corner is (0, 1). -/
theorem fgt_zeroOf_zeroOf (u v : Bool) : fgt (zeroOf u) (zeroOf v) = false := by
  revert u v
  decide

/-- The origin contributes a zero, whatever the gradient. -/
theorem corner_zeroOf_zeroOf (gi : BitVec 4) (u v : Bool) : ∃ w, corner gi (zeroOf u) (zeroOf v) = zeroOf w := by
  revert gi u v
  decide +kernel

/-- The middle corner, at `(G2, G2 - 1)`, has a falloff below zero. -/
theorem falloff_middle_of_zeros (u v : Bool) :
    flt (falloff (fadd (fsub (zeroOf u) (bitToF64 false)) cG2) (fadd (fsub (zeroOf v) (bitToF64 true)) cG2))
      cZERO = true := by
  revert u v
  decide +kernel

/-- So has the far corner, at `(2 G2 - 1, 2 G2 - 1)`. -/
theorem falloff_far_of_zeros (u v : Bool) :
    flt (falloff (fadd (fsub (zeroOf u) cONE) cG2X2) (fadd (fsub (zeroOf v) cONE) cG2X2)) cZERO = true := by
  revert u v
  decide +kernel

theorem scaledSum_zeroOf (w : Bool) : fmul cSCALE (fadd (fadd (zeroOf w) cZERO) cZERO) = cZERO := by
  revert w
  decide

/-- Where both offsets of the origin are zeros the sample is +0.0, under every table. -/
theorem noise2_of_zero_offsets {x y : F64} {u v : Bool} (hx : (toLattice x y).x0 = zeroOf u)
    (hy : (toLattice x y).y0 = zeroOf v) (tb : Tables) : noise2 tb x y = cZERO := by
  have hi1 : (toLattice x y).i1 = false := by
    rw [← fgt_zeroOf_zeroOf u v, ← hx, ← hy]
    rfl
  have hmiddle : flt (falloff (toLattice x y).x1 (toLattice x y).y1) cZERO = true := by
    rw [← falloff_middle_of_zeros u v, ← hx, ← hy, ← Bool.not_false, ← hi1]
    rfl
  have hfar : flt (falloff (toLattice x y).x2 (toLattice x y).y2) cZERO = true := by
    rw [← falloff_far_of_zeros u v, ← hx, ← hy]
    rfl
  obtain ⟨w, hw⟩ := corner_zeroOf_zeroOf (hashCorner tb (imod256 (toLattice x y).i) (imod256 (toLattice x y).j) 0 0) u v
  simp only [noise2, hx, hy, hw, corner_below hmiddle, corner_below hfar, scaledSum_zeroOf]

/-- Settles O41: at these points the offsets of the origin are zeros, where the sample is +0.0. -/
theorem zeroAtAntidiagonalIntegers : Obligations.ZeroAtAntidiagonalIntegers := by
  unfold Obligations.ZeroAtAntidiagonalIntegers
  intro tb k n hk hn
  obtain ⟨u, v, hx, hy⟩ := toLattice_antidiagonal hk hn
  exact noise2_of_zero_offsets hx hy tb

end Sys2Proof.Machine
end
